-- ==== Sys2Proof/Word.lean ====
section
/-! DEFINITION. The word types of the CHIP-8 core: bytes, 16-bit words, 12-bit immediates and register numbers. -/

namespace Sys2Proof

/-- An 8-bit value: a general register, a timer, a memory byte (10_state.md R20, R26, R29). -/
abbrev Byte := BitVec 8

/-- A 16-bit value: an opcode, `I`, `pc`, a stack slot (10_state.md R22, R23, R25; 30_encoding.md R60). -/
abbrev Word := BitVec 16

/-- A 12-bit immediate `nnn` (30_encoding.md R61). -/
abbrev Imm12 := BitVec 12

/-- A register number: a 4-bit opcode field, so never out of range (10_state.md R20). -/
abbrev Reg := Fin 16

/-- Register 15, the flag register (10_state.md R21). -/
abbrev VF : Reg := 15

end Sys2Proof
end

