-- ==== Sys2Proof/Config.lean ====
section
/-! DEFINITION. What the spec leaves as an argument of the model (00_scope.md R5): the type of the font, which
`construct`, `applyOp` and `runOps` of Machine/HostOps.lean take, and the free bytes that Cxkk draws. The third argument,
the host's schedule, is the list of operations that `runOps` takes. -/

namespace Sys2Proof

/-- The parameter `FONT : (0..79) -> byte`: 16 glyphs of 5 bytes (00_scope.md R5; 10_state.md R26, decision D1, log 1).
Whoever constructs or resets a machine gives one; its default is `defaultFont` in Machine/Memory.lean. -/
abbrev Font := Vector Byte 80

/-- The free byte of draw number `k` (41_alu.md R113, decision D2, log 2). It has no body: nothing in Lean can
evaluate it, no law relates two draws, and a claim about a program with Cxkk holds for every value of it. -/
opaque Config.randomByte (k : Nat) : Byte

end Sys2Proof
end

