-- ==== Sys2Proof/Machine/State.lean ====
section
/-! DEFINITION. The state of the core: every piece of state of spec/10_state.md and nothing else, plus the model's own
counter of free draws; the reasons a step stops; the state right after reset. -/

namespace Sys2Proof.Machine

/-- Memory as the list of the bytes that differ from what an unlisted address reads as (`resetByte` in Machine/Memory.lean:
the default font, and 0 above it), addresses strictly rising (10_state.md R26;
the canonical form is `Memory.wf` in Machine/Memory.lean). -/
abbrev Memory := List Host.Cell

/-- The whole state (10_state.md R20 to R30). -/
structure State where
  /-- The general registers `V[0]` .. `V[15]`; `V[15]` is also the flag register `VF` (10_state.md R20, R21). -/
  v : Vector Byte 16
  /-- The index register `I` (10_state.md R22). -/
  i : Word
  /-- The program counter (10_state.md R23). -/
  pc : Word
  /-- The number of return addresses held, 0..16 (10_state.md R25). -/
  sp : Fin 17
  /-- The call stack slots `S[0]` .. `S[15]` (10_state.md R25). -/
  stack : Vector Word 16
  /-- The 4096 bytes of memory, listed where they differ from `resetByte` (10_state.md R26). -/
  mem : Memory
  /-- The display, 64 columns by 32 rows, row-major: pixel `(x, y)` is element `x + 64 * y` (10_state.md R27). -/
  fb : Vector Bool 2048
  /-- The key latch `K[0]` .. `K[15]`, `true` for pressed (10_state.md R28). -/
  keys : Vector Bool 16
  /-- The delay timer `DT` (10_state.md R29). -/
  dt : Byte
  /-- The sound timer `ST` (10_state.md R29). -/
  st : Byte
  /-- The model's own: how many free bytes Cxkk has drawn so far; the next one drawn is
  `Config.randomByte draws` (41_alu.md R113, log 2). -/
  draws : Nat
  deriving DecidableEq, Repr

/-- Why an operation ends in a fault: the closed list of 60_exceptions.md R161 and R162. Each is reported to the host
as the operation's outcome (R163). All are the hardware's own faults, so stopping there is safe. -/
inductive Fault where
  /-- Code 1, raised by fetch when `pc + 1 > 4095`; carries `pc` (40_tick_and_control.md R81). Safe: the spec
  faults there. -/
  | fetchOutOfBounds (pc : Word)
  /-- Code 2, raised by execute for a word of no row of the opcode map; carries the raw opcode
  (30_encoding.md R65). Safe: the spec faults there. -/
  | unsupportedOpcode (op : Word)
  /-- Code 3, raised by CALL at `sp = 16` (40_tick_and_control.md R86). Safe: the spec faults there. -/
  | stackOverflow
  /-- Code 4, raised by RET at `sp = 0` (40_tick_and_control.md R84). Safe: the spec faults there. -/
  | stackUnderflow
  /-- Code 5, raised by Dxyn, Fx33, Fx55, Fx65 when their run of addresses ends above 4095; carries the lowest
  address out of range (20_memory.md R46). Safe: the spec faults there. -/
  | memOutOfBounds (addr : Nat)
  /-- Code 6, raised by Ex9E and ExA1 when `V[x] > 15`; carries `V[x]` (44_timer_key.md R151). Safe: the spec
  faults there, where a build that reads such a key as released would go on (log 6). -/
  | keyIndexOutOfRange (key : Byte)
  /-- Code 7, raised by the host operation `set_key` when `index > 15`; carries the index (60_exceptions.md R172).
  Never an outcome of `step`. Safe: the spec faults there. -/
  | invalidKeyIndex (index : Nat)
  /-- Code 8, raised by the host operation `load` for more than 3584 bytes; carries the length
  (70_reset_and_hazards.md R192). Never an outcome of `step`. Safe: the spec faults there. -/
  | imageTooLarge (length : Nat)
  deriving DecidableEq, Repr

/-- Why the model gives an instruction no meaning. -/
inductive Refusal where
  /-- Raised only by an arm of `exec` whose instruction has no meaning yet; there is none. Safe: the model stops
  where the hardware goes on. -/
  | notModelled (mnemonic : String)
  deriving DecidableEq, Repr

/-- What an instruction or a step answers. -/
abbrev Result := Host.Outcome State Fault Refusal

/-- The state after `construct()` with the default font (10_state.md R26, R31): everything zero or clear, `pc` at 512,
memory as at reset, so nothing listed. With any font it is `construct font` in Machine/HostOps.lean (log 1). `draws` starts at 0 (DESIGN CHOICE, log 2). -/
def State.reset : State where
  v := Vector.replicate 16 0
  i := 0
  pc := 512
  sp := 0
  stack := Vector.replicate 16 0
  mem := []
  fb := Vector.replicate 2048 false
  keys := Vector.replicate 16 false
  dt := 0
  st := 0
  draws := 0

end Sys2Proof.Machine
end

