-- ==== Sys2Proof/Machine/Flags.lean ====
section
/-! DEFINITION. Every flag computation of the spec. A flag is the value 0 or 1, written into all 8 bits of `VF`
(10_state.md R21). -/

namespace Sys2Proof.Machine

/-- A condition as a flag value, 1 or 0 (10_state.md R21). -/
def flagOf (c : Bool) : Byte := if c then 1 else 0

/-- Carry out of bit 7 of `a + b`: 1 when the exact sum exceeds 255 (41_alu.md R100, R108). -/
def carryFlag (a b : Byte) : Byte := flagOf (decide (a.toNat + b.toNat > 255))

/-- No borrow in `a - b`: 1 when `a >= b` (41_alu.md R100, R109, R111). -/
def noBorrowFlag (a b : Byte) : Byte := flagOf (decide (a.toNat ≥ b.toNat))

/-- The bit a right shift drops, `a & 1` (41_alu.md R110). -/
def lowBitFlag (a : Byte) : Byte := a &&& 1

/-- The bit a left shift drops, `(a >> 7) & 1` (41_alu.md R112). -/
def highBitFlag (a : Byte) : Byte := (a >>> 7) &&& 1

/-- The collision flag of a sprite draw (43_display.md R136). -/
def collisionFlag (collision : Bool) : Byte := flagOf collision

end Sys2Proof.Machine
end

