-- ==== Sys2Proof/Machine/Memory.lean ====
section
/-! DEFINITION. Memory: the default font, what an unlisted address reads as, the canonical form, and reading and writing
one byte (spec/20_memory.md). -/

namespace Sys2Proof.Machine

/-- The bytes of the default font, 16 glyphs of 5 bytes (10_state.md R26). PRESUMED: the spec marks the table as general
knowledge and not its source (decision D1, log 1). -/
def fontTable : List Byte :=
  [0xF0, 0x90, 0x90, 0x90, 0xF0] ++ [0x20, 0x60, 0x20, 0x20, 0x70] ++
  [0xF0, 0x10, 0xF0, 0x80, 0xF0] ++ [0xF0, 0x10, 0xF0, 0x10, 0xF0] ++
  [0x90, 0x90, 0xF0, 0x10, 0x10] ++ [0xF0, 0x80, 0xF0, 0x10, 0xF0] ++
  [0xF0, 0x80, 0xF0, 0x90, 0xF0] ++ [0xF0, 0x10, 0x20, 0x40, 0x40] ++
  [0xF0, 0x90, 0xF0, 0x90, 0xF0] ++ [0xF0, 0x90, 0xF0, 0x10, 0xF0] ++
  [0xF0, 0x90, 0xF0, 0x90, 0x90] ++ [0xE0, 0x90, 0xE0, 0x90, 0xE0] ++
  [0xF0, 0x80, 0x80, 0x80, 0xF0] ++ [0xE0, 0x90, 0x90, 0x90, 0xE0] ++
  [0xF0, 0x80, 0xF0, 0x80, 0xF0] ++ [0xF0, 0x80, 0xF0, 0x80, 0x80]

/-- The value of the parameter `FONT` to be used unless a model is told otherwise (10_state.md R26). -/
def defaultFont : Font := ⟨fontTable.toArray, by decide⟩

/-- What address `a` reads as when it is not listed: what it holds after reset with the default font, so the font at
0..79 and 0 above (10_state.md R26, R31). A machine of another font lists the bytes in which its font differs (log 24). -/
def resetByte (a : Nat) : Byte := fontTable.getD a 0

/-- The number of bytes of memory (00_scope.md R5 `MEM_SIZE`): addresses 0..4095 exist (20_memory.md R40). -/
def memSize : Nat := 4096

/-- Every listed address is at least `low` and exists, addresses rise strictly, and no listed byte equals what its
address reads as unlisted. -/
def Memory.wfFrom : Nat → Memory → Bool
  | _, [] => true
  | low, (a, b) :: m => decide (low ≤ a) && decide (a < memSize) && decide (b ≠ resetByte a) && Memory.wfFrom (a + 1) m

/-- The canonical form of memory: equal memories are equal lists. -/
def Memory.wf (m : Memory) : Bool := Memory.wfFrom 0 m

/-- The byte at address `a`, the listed one or else the reset byte. -/
def Memory.peek : Memory → Nat → Byte
  | [], a => resetByte a
  | (a', b') :: m, a => if a = a' then b' else Memory.peek m a

/-- `b` listed at `a` in front of `m`, unless it is the reset byte of `a`. -/
def Memory.cons (a : Nat) (b : Byte) (m : Memory) : Memory := if b = resetByte a then m else (a, b) :: m

/-- Memory with byte `b` at address `a`, kept in canonical form. -/
def Memory.put : Memory → Nat → Byte → Memory
  | [], a, b => Memory.cons a b []
  | (a', b') :: m, a, b =>
    if a < a' then Memory.cons a b ((a', b') :: m)
    else if a = a' then Memory.cons a b m
    else (a', b') :: Memory.put m a b

/-- Memory with the bytes `bs` at `a`, `a + 1`, …, written in that order (20_memory.md R43, R49). -/
def Memory.putRun : Memory → Nat → List Byte → Memory
  | m, _, [] => m
  | m, a, b :: bs => Memory.putRun (m.put a b) (a + 1) bs

end Sys2Proof.Machine
end

