-- ==== Sys2Proof/Machine/Ops.lean ====
section
/-! DEFINITION. The named operations over registers, stack, memory, display and keys that the meanings share, and the
one way to raise a fault (spec/60_exceptions.md R163). There is no return from a fault: nothing is saved and control
goes nowhere (R163, R168). -/

namespace Sys2Proof.Machine

/-- `raise <Fault>`: the operation ends at once with the fault as its outcome (00_scope.md R8; 60_exceptions.md R163).
Every instruction raises before it has changed anything, so the state it leaves is the one it was given (R164): see
`tick` in Machine/HostOps.lean. -/
def raise (f : Fault) : Result := .fault f

/-! Registers. -/

/-- `V[x]` (00_scope.md R8). -/
def State.reg (s : State) (x : Reg) : Byte := s.v[x.val]

/-- `V[x] <- b` (00_scope.md R8). -/
def State.setReg (s : State) (x : Reg) (b : Byte) : State := { s with v := s.v.set x.val b }

/-- `VF <- b`: a write of register 15 (10_state.md R21). -/
def State.setFlag (s : State) (b : Byte) : State := s.setReg VF b

/-- `I <- w` (00_scope.md R8). -/
def State.setI (s : State) (w : Word) : State := { s with i := w }

/-- `pc <- target` (00_scope.md R8). Never masked to 12 bits (10_state.md R24). -/
def State.setPc (s : State) (target : Word) : State := { s with pc := target }

/-- `DT <- b` (44_timer_key.md R149). -/
def State.setDt (s : State) (b : Byte) : State := { s with dt := b }

/-- `ST <- b` (44_timer_key.md R150). -/
def State.setSt (s : State) (b : Byte) : State := { s with st := b }

/-- The key latch replaced, by the host only (60_exceptions.md R172). -/
def State.setKeys (s : State) (keys : Vector Bool 16) : State := { s with keys := keys }

/-- The stack slots and pointer replaced (10_state.md R25). -/
def State.setStack (s : State) (stack : Vector Word 16) (sp : Fin 17) : State := { s with stack := stack, sp := sp }

/-- `skip` when the condition holds: `pc <- pc + 2` (40_tick_and_control.md R92). -/
def State.skipIf (s : State) (c : Bool) : State := if c then s.setPc (s.pc + 2) else s

/-- The state after one free byte has been drawn (41_alu.md R113, log 2). -/
def State.nextDraw (s : State) : State := { s with draws := s.draws + 1 }

/-! The call stack. -/

/-- Push: `S[sp] <- w`, then `sp <- sp + 1`; a fault when all 16 slots are live (10_state.md R25;
40_tick_and_control.md R86). The continuation gets the state after the push. -/
def State.push (s : State) (w : Word) (k : State → Result) : Result :=
  if h : s.sp.val < 16 then k (s.setStack (s.stack.set s.sp.val w) ⟨s.sp.val + 1, by omega⟩)
  else raise .stackOverflow

/-- Pop: `sp <- sp - 1`, then read `S[sp]`, which keeps its contents; a fault when the stack is empty
(10_state.md R25; 40_tick_and_control.md R84). The continuation gets the popped word and the state after. -/
def State.pop (s : State) (k : Word → State → Result) : Result :=
  if h : 0 < s.sp.val then k (s.stack[s.sp.val - 1]'(by omega)) (s.setStack s.stack ⟨s.sp.val - 1, by omega⟩)
  else raise .stackUnderflow

/-! Memory. -/

/-- `MemRead(a, 1)`: the byte at address `a`, and none where no address exists (20_memory.md R42). -/
def State.readByte (s : State) (a : Nat) : Option Byte := if a < memSize then some (s.mem.peek a) else none

/-- The bytes at `base`, `base + 1`, …, `len` of them. -/
def State.loadRun (s : State) (base len : Nat) : List Byte := (List.range len).map fun k => s.mem.peek (base + k)

/-- The whole memory replaced. -/
def State.setMem (s : State) (mem : Memory) : State := { s with mem := mem }

/-- The bytes stored at `base`, `base + 1`, … in order. -/
def State.storeRun (s : State) (base : Nat) (bs : List Byte) : State := s.setMem (s.mem.putRun base bs)

/-- Go on with `k` when the run of `len` addresses from `base` lies in memory; else raise `MemOutOfBounds` with the
lowest address out of range and do nothing (20_memory.md R42, R46). An empty run never faults (R47). Addresses are
unbounded numbers, never reduced (R42). -/
def guardRun (base len : Nat) (k : Result) : Result :=
  if 0 < len ∧ base + len - 1 > 4095 then raise (.memOutOfBounds (max base 4096)) else k

/-! The display. -/

/-- The place of pixel `(x, y)` in the row-major grid, coordinates wrapping at 64 and 32 (10_state.md R27;
43_display.md R136). -/
def pixelIndex (x y : Nat) : Fin 2048 := ⟨x % 64 + 64 * (y % 32), by omega⟩

/-- `FB[x, y]` (10_state.md R27). -/
def State.pixel (s : State) (x : Fin 64) (y : Fin 32) : Bool := s.fb[(pixelIndex x.val y.val).val]

/-- The whole display replaced. -/
def State.setDisplay (s : State) (fb : Vector Bool 2048) : State := { s with fb := fb }

/-! The key latch. -/

/-- `K[k]` (10_state.md R28). -/
def State.key (s : State) (k : Fin 16) : Bool := s.keys[k.val]

/-- The least index of a pressed key, if any key is pressed: an ascending scan of keys 0 to 15 that stops at the first
hit (44_timer_key.md R148, decision D9, log 7). -/
def State.leastKey (s : State) : Option Nat := s.keys.toList.findIdx? id

end Sys2Proof.Machine
end

