-- ==== Sys2Proof/Machine/Operands.lean ====
section
/-! DEFINITION. The operand forms: zero-extended immediates (30_encoding.md R63), the `I`-based run of addresses
(42_index_memory.md), the key that a register names (44_timer_key.md R151), decimal digits. -/

namespace Sys2Proof.Machine

/-- `nnn` or an 8-bit value zero-extended to 16 bits (30_encoding.md R63; 00_scope.md R7). -/
def zext16 {w : Nat} (b : BitVec w) : Word := b.setWidth 16

/-- The base address of an `I`-based run: the whole value of `I` (20_memory.md R42). -/
def State.base (s : State) : Nat := s.i.toNat

/-- The values of `V[0]` .. `V[x]` in order (42_index_memory.md R124). -/
def State.regsTo (s : State) (x : Reg) : List Byte := s.v.toList.take (x.val + 1)

/-- `V[k] <- bs[0]`, `V[k + 1] <- bs[1]`, … up to register 15, written in that order (42_index_memory.md R125). -/
def State.setRegsFrom (s : State) (k : Nat) : List Byte → State
  | [] => s
  | b :: bs => if h : k < 16 then (s.setReg ⟨k, h⟩ b).setRegsFrom (k + 1) bs else s

/-- The three decimal digits of a byte, hundreds first (42_index_memory.md R123). -/
def bcdDigits (b : Byte) : List Byte :=
  [BitVec.ofNat 8 (b.toNat / 100), BitVec.ofNat 8 (b.toNat / 10 % 10), BitVec.ofNat 8 (b.toNat % 10)]

/-- Go on with the key that `V[x]` names; a value above 15 names no key and faults (44_timer_key.md R151,
decision D8, log 6). -/
def State.withKey (s : State) (x : Reg) (k : Bool → Result) : Result :=
  if h : (s.reg x).toNat < 16 then k (s.key ⟨(s.reg x).toNat, h⟩) else raise (.keyIndexOutOfRange (s.reg x))

end Sys2Proof.Machine
end

