-- ==== Sys2Proof/Machine/Alu.lean ====
section
/-! DEFINITION. Register load, arithmetic, logic, shift and random (spec/41_alu.md). The assignments of an instruction
take place in the order its rule writes them; carry and borrow are judged on the operands as they were at the start
(R101, decision D7, log 5). -/

namespace Sys2Proof.Machine

/-- 6xkk `LD Vx, kk` (R102). -/
def execLdImm (x : Reg) (kk : Byte) (s : State) : Result := .next (s.setReg x kk)

/-- 7xkk `ADD Vx, kk`: modulo 256, no flag (R103). -/
def execAddImm (x : Reg) (kk : Byte) (s : State) : Result := .next (s.setReg x (s.reg x + kk))

/-- 8xy0 `LD Vx, Vy` (R104). -/
def execLdReg (x y : Reg) (s : State) : Result := .next (s.setReg x (s.reg y))

/-- 8xy1 `OR Vx, Vy`: no flag (R105). -/
def execOrReg (x y : Reg) (s : State) : Result := .next (s.setReg x (s.reg x ||| s.reg y))

/-- 8xy2 `AND Vx, Vy`: no flag (R106). -/
def execAndReg (x y : Reg) (s : State) : Result := .next (s.setReg x (s.reg x &&& s.reg y))

/-- 8xy3 `XOR Vx, Vy`: no flag (R107). -/
def execXorReg (x y : Reg) (s : State) : Result := .next (s.setReg x (s.reg x ^^^ s.reg y))

/-- 8xy4 `ADD Vx, Vy`: the sum modulo 256, then `VF` = carry, written last (R108). -/
def execAddReg (x y : Reg) (s : State) : Result :=
  let a := s.reg x
  let b := s.reg y
  .next ((s.setReg x (a + b)).setFlag (carryFlag a b))

/-- 8xy5 `SUB Vx, Vy`: `V[x] - V[y]` modulo 256, then `VF` = no borrow, written last (R109). -/
def execSubReg (x y : Reg) (s : State) : Result :=
  let a := s.reg x
  let b := s.reg y
  .next ((s.setReg x (a - b)).setFlag (noBorrowFlag a b))

/-- 8xy6 `SHR Vx`: `VF` = the bit shifted out, written first, then `V[x] <- V[x] >> 1` (R110). -/
def execShr (x : Reg) (s : State) : Result :=
  let t := s.setFlag (lowBitFlag (s.reg x))
  .next (t.setReg x (t.reg x >>> 1))

/-- 8xy7 `SUBN Vx, Vy`: `V[y] - V[x]` modulo 256, then `VF` = no borrow, written last (R111). -/
def execSubn (x y : Reg) (s : State) : Result :=
  let a := s.reg x
  let b := s.reg y
  .next ((s.setReg x (b - a)).setFlag (noBorrowFlag b a))

/-- 8xyE `SHL Vx`: `VF` = the bit shifted out, written first, then `V[x] <- V[x] << 1` modulo 256 (R112). -/
def execShl (x : Reg) (s : State) : Result :=
  let t := s.setFlag (highBitFlag (s.reg x))
  .next (t.setReg x (t.reg x <<< 1))

/-- Cxkk `RND Vx, kk`: a fresh free byte AND `kk` (R113, decision D2, log 2). -/
def execRnd (x : Reg) (kk : Byte) (s : State) : Result :=
  .next ((s.setReg x (Config.randomByte s.draws &&& kk)).nextDraw)

end Sys2Proof.Machine
end

