-- ==== Sys2Proof/Machine/Control.lean ====
section
/-! DEFINITION. No-op, jumps, calls and skips (spec/40_tick_and_control.md). Every meaning is given the state after
fetch, with `pc` already two above the instruction's address. -/

namespace Sys2Proof.Machine

/-- 0000 `NOP`: nothing (R83). -/
def execNop (s : State) : Result := .next s

/-- 00EE `RET`: pop the return address into `pc` (R84). -/
def execRet (s : State) : Result := s.pop fun target t => .next (t.setPc target)

/-- 1nnn `JP nnn`: `pc <- nnn` (R85). -/
def execJp (nnn : Imm12) (s : State) : Result := .next (s.setPc (zext16 nnn))

/-- 2nnn `CALL nnn`: push `pc`, which is past the CALL already, then `pc <- nnn` (R86). -/
def execCall (nnn : Imm12) (s : State) : Result := s.push s.pc fun t => .next (t.setPc (zext16 nnn))

/-- 3xkk `SE Vx, kk`: skip if `V[x] = kk` (R87). -/
def execSeImm (x : Reg) (kk : Byte) (s : State) : Result := .next (s.skipIf (s.reg x == kk))

/-- 4xkk `SNE Vx, kk`: skip if `V[x] != kk` (R88). -/
def execSneImm (x : Reg) (kk : Byte) (s : State) : Result := .next (s.skipIf (s.reg x != kk))

/-- 5xy0 `SE Vx, Vy`: skip if `V[x] = V[y]` (R89). -/
def execSeReg (x y : Reg) (s : State) : Result := .next (s.skipIf (s.reg x == s.reg y))

/-- 9xy0 `SNE Vx, Vy`: skip if `V[x] != V[y]` (R90). -/
def execSneReg (x y : Reg) (s : State) : Result := .next (s.skipIf (s.reg x != s.reg y))

/-- Bnnn `JP V0, nnn`: `pc <- V[0] + nnn`, the plain sum, not reduced modulo 4096 (R91). -/
def execJpV0 (nnn : Imm12) (s : State) : Result := .next (s.setPc (zext16 (s.reg 0) + zext16 nnn))

end Sys2Proof.Machine
end

