-- ==== Sys2Proof/Machine/Display.lean ====
section
/-! DEFINITION. Clear and sprite draw (spec/43_display.md). -/

namespace Sys2Proof.Machine

/-- The display while a sprite is drawn, and whether a pixel has gone from set to unset so far. -/
structure Canvas where
  fb : Vector Bool 2048
  collision : Bool
  deriving DecidableEq, Repr

/-- XOR one pixel, coordinates wrapping, and record a collision when it was set (R136). -/
def Canvas.toggle (c : Canvas) (x y : Nat) : Canvas where
  fb := c.fb.set (pixelIndex x y).val (!c.fb[(pixelIndex x y).val])
  collision := c.collision || c.fb[(pixelIndex x y).val]

/-- The bit of a sprite row in column `col`: bit 7 is column 0, the leftmost (R136). -/
def spriteBit (row : Byte) (col : Nat) : Bool := row.getLsbD (7 - col)

/-- One sprite row of 8 columns at `(x, y)`: a 1 bit toggles its pixel, a 0 bit does nothing (R136). -/
def Canvas.drawRow (c : Canvas) (row : Byte) (x y : Nat) : Canvas :=
  (List.range 8).foldl (fun c col => if spriteBit row col then c.toggle (x + col) y else c) c

/-- The sprite rows one below the other from `(x, y)` down (R136). -/
def Canvas.drawRows (c : Canvas) : List Byte → Nat → Nat → Canvas
  | [], _, _ => c
  | row :: rows, x, y => (c.drawRow row x y).drawRows rows x (y + 1)

/-- 00E0 `CLS`: every pixel `false` (R135). -/
def execCls (s : State) : Result := .next (s.setDisplay (Vector.replicate 2048 false))

/-- Dxyn `DRW Vx, Vy, n`: the `n` bytes from `I` up XORed onto the display at `(V[x], V[y])`, both read before `VF` is
written; `VF` = 1 if any pixel went from set to unset, else 0, written last (R136). With `n = 0` no memory is read
and nothing can fault (20_memory.md R47). -/
def execDrw (x y : Reg) (n : Nat) (s : State) : Result :=
  guardRun s.base n
    (let c := Canvas.drawRows ⟨s.fb, false⟩ (s.loadRun s.base n) (s.reg x).toNat (s.reg y).toNat
     .next ((s.setDisplay c.fb).setFlag (collisionFlag c.collision)))

end Sys2Proof.Machine
end

