-- ==== Sys2Proof/Machine/IndexMemory.lean ====
section
/-! DEFINITION. Index register, BCD and register block transfer (spec/42_index_memory.md). `I` is read and preserved by
Fx33, Fx55 and Fx65 (R126, log 12). -/

namespace Sys2Proof.Machine

/-- Annn `LD I, nnn`: zero-extended (R120). -/
def execLdI (nnn : Imm12) (s : State) : Result := .next (s.setI (zext16 nnn))

/-- Fx1E `ADD I, Vx`: modulo 65536, no flag (R121). -/
def execAddI (x : Reg) (s : State) : Result := .next (s.setI (s.i + zext16 (s.reg x)))

/-- Fx29 `LD F, Vx`: `I <- 5 * V[x]`, the whole byte, not masked to a digit (R122). -/
def execLdF (x : Reg) (s : State) : Result := .next (s.setI (5 * zext16 (s.reg x)))

/-- Fx33 `LD B, Vx`: hundreds, tens, ones at `I`, `I + 1`, `I + 2` (R123). -/
def execLdB (x : Reg) (s : State) : Result :=
  guardRun s.base 3 (.next (s.storeRun s.base (bcdDigits (s.reg x))))

/-- Fx55 `LD [I], Vx`: `V[0]` .. `V[x]` stored from `I` up (R124). -/
def execStRegs (x : Reg) (s : State) : Result :=
  guardRun s.base (x.val + 1) (.next (s.storeRun s.base (s.regsTo x)))

/-- Fx65 `LD Vx, [I]`: `V[0]` .. `V[x]` loaded from `I` up (R125). -/
def execLdRegs (x : Reg) (s : State) : Result :=
  guardRun s.base (x.val + 1) (.next (s.setRegsFrom 0 (s.loadRun s.base (x.val + 1))))

end Sys2Proof.Machine
end

