-- ==== Sys2Proof/Machine/TimerKey.lean ====
section
/-! DEFINITION. Timer and keypad instructions (spec/44_timer_key.md). -/

namespace Sys2Proof.Machine

/-- Ex9E `SKP Vx`: skip if the key `V[x]` is pressed (R145, R151). -/
def execSkp (x : Reg) (s : State) : Result := s.withKey x fun pressed => .next (s.skipIf pressed)

/-- ExA1 `SKNP Vx`: skip if the key `V[x]` is not pressed (R146, R151). -/
def execSknp (x : Reg) (s : State) : Result := s.withKey x fun pressed => .next (s.skipIf (!pressed))

/-- Fx07 `LD Vx, DT` (R147). -/
def execLdVxDt (x : Reg) (s : State) : Result := .next (s.setReg x s.dt)

/-- Fx0A `LD Vx, K`: the least pressed key into `V[x]`; with no key pressed `pc` goes back onto this instruction, so
that the next tick runs it again (R148). -/
def execLdVxK (x : Reg) (s : State) : Result :=
  match s.leastKey with
  | some k => .next (s.setReg x (BitVec.ofNat 8 k))
  | none => .next (s.setPc (s.pc - 2))

/-- Fx15 `LD DT, Vx` (R149). -/
def execLdDtVx (x : Reg) (s : State) : Result := .next (s.setDt (s.reg x))

/-- Fx18 `LD ST, Vx` (R150). -/
def execLdStVx (x : Reg) (s : State) : Result := .next (s.setSt (s.reg x))

end Sys2Proof.Machine
end

