-- ==== Sys2Proof/Syntax.lean ====
section
/-! DEFINITION. The instructions: one constructor for each of the 35 rows of spec/opcode_table.json. -/

namespace Sys2Proof

/-- The 35 instructions of 30_encoding.md R64, in the table's order. `x` and `y` are register numbers, `kk` an 8-bit
and `nnn` a 12-bit immediate, `n` the number of sprite rows (R61). SHR and SHL carry no `y`: all 16 values of that
field give the same instruction (R68, log 16). -/
inductive Instr where
  | nop                                  -- 0000
  | cls                                  -- 00E0
  | ret                                  -- 00EE
  | jp     (nnn : Imm12)                 -- 1nnn
  | call   (nnn : Imm12)                 -- 2nnn
  | seImm  (x : Reg) (kk : Byte)         -- 3xkk
  | sneImm (x : Reg) (kk : Byte)         -- 4xkk
  | seReg  (x y : Reg)                   -- 5xy0
  | ldImm  (x : Reg) (kk : Byte)         -- 6xkk
  | addImm (x : Reg) (kk : Byte)         -- 7xkk
  | ldReg  (x y : Reg)                   -- 8xy0
  | orReg  (x y : Reg)                   -- 8xy1
  | andReg (x y : Reg)                   -- 8xy2
  | xorReg (x y : Reg)                   -- 8xy3
  | addReg (x y : Reg)                   -- 8xy4
  | subReg (x y : Reg)                   -- 8xy5
  | shr    (x : Reg)                     -- 8xy6
  | subn   (x y : Reg)                   -- 8xy7
  | shl    (x : Reg)                     -- 8xyE
  | sneReg (x y : Reg)                   -- 9xy0
  | ldI    (nnn : Imm12)                 -- Annn
  | jpV0   (nnn : Imm12)                 -- Bnnn
  | rnd    (x : Reg) (kk : Byte)         -- Cxkk
  | drw    (x y : Reg) (n : Nat)         -- Dxyn
  | skp    (x : Reg)                     -- Ex9E
  | sknp   (x : Reg)                     -- ExA1
  | ldVxDt (x : Reg)                     -- Fx07
  | ldVxK  (x : Reg)                     -- Fx0A
  | ldDtVx (x : Reg)                     -- Fx15
  | ldStVx (x : Reg)                     -- Fx18
  | addI   (x : Reg)                     -- Fx1E
  | ldF    (x : Reg)                     -- Fx29
  | ldB    (x : Reg)                     -- Fx33
  | stRegs (x : Reg)                     -- Fx55
  | ldRegs (x : Reg)                     -- Fx65
  deriving DecidableEq, Repr

end Sys2Proof
end

