-- ==== Sys2Proof/Decode.lean ====
section
/-! DEFINITION. From bytes to instructions and back: fields (30_encoding.md R61), the total decoder (R64, R65, R71),
the encoder, and the opcode map itself as a list of rows (R64). -/

namespace Sys2Proof

/-- `op[hi:lo]`: the unsigned integer made of bits `hi` down to `lo` (00_scope.md R6). -/
def bits (hi lo : Nat) (op : Word) : Nat := op.toNat / 2 ^ lo % 2 ^ (hi - lo + 1)

theorem bits_lt (hi lo : Nat) (op : Word) : bits hi lo op < 2 ^ (hi - lo + 1) :=
  Nat.mod_lt _ (by positivity)

/-- Field 2 as a register number, `x = op[11:8]` (30_encoding.md R61). -/
def fieldX (op : Word) : Reg := ⟨bits 11 8 op, bits_lt 11 8 op⟩

/-- Field 3 as a register number, `y = op[7:4]` (30_encoding.md R61). -/
def fieldY (op : Word) : Reg := ⟨bits 7 4 op, bits_lt 7 4 op⟩

/-- Field 4, `n = op[3:0]` (30_encoding.md R61). -/
def fieldN (op : Word) : Nat := bits 3 0 op

/-- The low byte, `kk = op[7:0]` (30_encoding.md R61). -/
def fieldKK (op : Word) : Byte := BitVec.ofNat 8 (bits 7 0 op)

/-- The low twelve bits, `nnn = op[11:0]` (30_encoding.md R61). -/
def fieldNNN (op : Word) : Imm12 := BitVec.ofNat 12 (bits 11 0 op)

/-- Why bytes are no instruction. -/
inductive Reject where
  /-- The word matches none of the 35 patterns; it carries the raw opcode (30_encoding.md R65). -/
  | unsupported (op : Word)
  /-- Fewer than the two bytes of an opcode were given (30_encoding.md R60). -/
  | truncated (given : Nat)
  deriving DecidableEq, Repr

/-- The words with leading nibble 0: three fixed words (30_encoding.md R64 rows 1 to 3, R67). -/
def decodeGroup0 (op : Word) : Except Reject Instr :=
  if op = 0x0000 then .ok .nop
  else if op = 0x00E0 then .ok .cls
  else if op = 0x00EE then .ok .ret
  else .error (.unsupported op)

/-- The words with leading nibble 8, by their low nibble (30_encoding.md R64 rows 11 to 19). -/
def decodeGroup8 (op : Word) (x y : Reg) : Except Reject Instr :=
  match fieldN op with
  | 0x0 => .ok (.ldReg x y)
  | 0x1 => .ok (.orReg x y)
  | 0x2 => .ok (.andReg x y)
  | 0x3 => .ok (.xorReg x y)
  | 0x4 => .ok (.addReg x y)
  | 0x5 => .ok (.subReg x y)
  | 0x6 => .ok (.shr x)
  | 0x7 => .ok (.subn x y)
  | 0xE => .ok (.shl x)
  | _ => .error (.unsupported op)

/-- The words with leading nibble E, by their low byte (30_encoding.md R64 rows 25 and 26). -/
def decodeGroupE (op : Word) (x : Reg) : Except Reject Instr :=
  let kk := bits 7 0 op
  if kk = 0x9E then .ok (.skp x)
  else if kk = 0xA1 then .ok (.sknp x)
  else .error (.unsupported op)

/-- The words with leading nibble F, by their low byte (30_encoding.md R64 rows 27 to 35). -/
def decodeGroupF (op : Word) (x : Reg) : Except Reject Instr :=
  let kk := bits 7 0 op
  if kk = 0x07 then .ok (.ldVxDt x)
  else if kk = 0x0A then .ok (.ldVxK x)
  else if kk = 0x15 then .ok (.ldDtVx x)
  else if kk = 0x18 then .ok (.ldStVx x)
  else if kk = 0x1E then .ok (.addI x)
  else if kk = 0x29 then .ok (.ldF x)
  else if kk = 0x33 then .ok (.ldB x)
  else if kk = 0x55 then .ok (.stRegs x)
  else if kk = 0x65 then .ok (.ldRegs x)
  else .error (.unsupported op)

/-- Decode one opcode: the match of 30_encoding.md R64 on the leading nibble, and within a group on what the group
fixes. Every word that matches no row is rejected with its raw value (R65). It reads no state (R71). -/
def decodeOp (op : Word) : Except Reject Instr :=
  let x := fieldX op
  let y := fieldY op
  let kk := fieldKK op
  let nnn := fieldNNN op
  match bits 15 12 op with
  | 0x0 => decodeGroup0 op
  | 0x1 => .ok (.jp nnn)
  | 0x2 => .ok (.call nnn)
  | 0x3 => .ok (.seImm x kk)
  | 0x4 => .ok (.sneImm x kk)
  | 0x5 => if fieldN op = 0 then .ok (.seReg x y) else .error (.unsupported op)
  | 0x6 => .ok (.ldImm x kk)
  | 0x7 => .ok (.addImm x kk)
  | 0x8 => decodeGroup8 op x y
  | 0x9 => if fieldN op = 0 then .ok (.sneReg x y) else .error (.unsupported op)
  | 0xA => .ok (.ldI nnn)
  | 0xB => .ok (.jpV0 nnn)
  | 0xC => .ok (.rnd x kk)
  | 0xD => .ok (.drw x y (fieldN op))
  | 0xE => decodeGroupE op x
  | 0xF => decodeGroupF op x
  | _ => .error (.unsupported op)

/-- Two bytes of memory as an opcode, high byte first (20_memory.md R43). -/
def bigEndian (hi lo : Byte) : Word := BitVec.ofNat 16 (hi.toNat * 256 + lo.toNat)

/-- Decode the first instruction of a byte string and give the bytes after it. Total: two bytes always make an
opcode, and fewer are rejected by name (30_encoding.md R60, R71). -/
def decodeBytes : List Byte → Except Reject (Instr × List Byte)
  | hi :: lo :: rest =>
    match decodeOp (bigEndian hi lo) with
    | .ok i => .ok (i, rest)
    | .error r => .error r
  | [_] => .error (.truncated 1)
  | [] => .error (.truncated 0)

/-- A word from its four nibbles `t x y n`, high to low (30_encoding.md R61). -/
def packXYN (t x y n : Nat) : Word := BitVec.ofNat 16 (t * 4096 + x * 256 + y * 16 + n)

/-- A word from `t`, `x` and the low byte (formats XKK and X of 30_encoding.md R62). -/
def packXKK (t x kk : Nat) : Word := BitVec.ofNat 16 (t * 4096 + x * 256 + kk)

/-- A word from `t` and the low twelve bits (formats NNN and FIXED of 30_encoding.md R62). -/
def packNNN (t nnn : Nat) : Word := BitVec.ofNat 16 (t * 4096 + nnn)

/-- The word of a well-formed instruction, from the encodings of 30_encoding.md R64. SHR and SHL assemble with
`y = 0` (R69). -/
def encode : Instr → Word
  | .nop => packNNN 0x0 0x000
  | .cls => packNNN 0x0 0x0E0
  | .ret => packNNN 0x0 0x0EE
  | .jp nnn => packNNN 0x1 nnn.toNat
  | .call nnn => packNNN 0x2 nnn.toNat
  | .seImm x kk => packXKK 0x3 x.val kk.toNat
  | .sneImm x kk => packXKK 0x4 x.val kk.toNat
  | .seReg x y => packXYN 0x5 x.val y.val 0x0
  | .ldImm x kk => packXKK 0x6 x.val kk.toNat
  | .addImm x kk => packXKK 0x7 x.val kk.toNat
  | .ldReg x y => packXYN 0x8 x.val y.val 0x0
  | .orReg x y => packXYN 0x8 x.val y.val 0x1
  | .andReg x y => packXYN 0x8 x.val y.val 0x2
  | .xorReg x y => packXYN 0x8 x.val y.val 0x3
  | .addReg x y => packXYN 0x8 x.val y.val 0x4
  | .subReg x y => packXYN 0x8 x.val y.val 0x5
  | .shr x => packXYN 0x8 x.val 0x0 0x6
  | .subn x y => packXYN 0x8 x.val y.val 0x7
  | .shl x => packXYN 0x8 x.val 0x0 0xE
  | .sneReg x y => packXYN 0x9 x.val y.val 0x0
  | .ldI nnn => packNNN 0xA nnn.toNat
  | .jpV0 nnn => packNNN 0xB nnn.toNat
  | .rnd x kk => packXKK 0xC x.val kk.toNat
  | .drw x y n => packXYN 0xD x.val y.val n
  | .skp x => packXKK 0xE x.val 0x9E
  | .sknp x => packXKK 0xE x.val 0xA1
  | .ldVxDt x => packXKK 0xF x.val 0x07
  | .ldVxK x => packXKK 0xF x.val 0x0A
  | .ldDtVx x => packXKK 0xF x.val 0x15
  | .ldStVx x => packXKK 0xF x.val 0x18
  | .addI x => packXKK 0xF x.val 0x1E
  | .ldF x => packXKK 0xF x.val 0x29
  | .ldB x => packXKK 0xF x.val 0x33
  | .stRegs x => packXKK 0xF x.val 0x55
  | .ldRegs x => packXKK 0xF x.val 0x65

/-- One row of the opcode map (30_encoding.md R64): an opcode `op` belongs to it when `op & mask = match`. -/
structure OpcodeRow where
  mnemonic : String
  pattern : Word
  mask : Word
  deriving DecidableEq, Repr

/-- `op & mask = match` (30_encoding.md R64). -/
def OpcodeRow.selects (r : OpcodeRow) (op : Word) : Bool := op &&& r.mask == r.pattern

/-- The row of spec/opcode_table.json that an instruction stands for: its mnemonic key, match and mask
(30_encoding.md R64, R69). -/
def Instr.row : Instr → OpcodeRow
  | .nop => ⟨"NOP", 0x0000, 0xFFFF⟩
  | .cls => ⟨"CLS", 0x00E0, 0xFFFF⟩
  | .ret => ⟨"RET", 0x00EE, 0xFFFF⟩
  | .jp _ => ⟨"JP_nnn", 0x1000, 0xF000⟩
  | .call _ => ⟨"CALL_nnn", 0x2000, 0xF000⟩
  | .seImm _ _ => ⟨"SE_Vx_kk", 0x3000, 0xF000⟩
  | .sneImm _ _ => ⟨"SNE_Vx_kk", 0x4000, 0xF000⟩
  | .seReg _ _ => ⟨"SE_Vx_Vy", 0x5000, 0xF00F⟩
  | .ldImm _ _ => ⟨"LD_Vx_kk", 0x6000, 0xF000⟩
  | .addImm _ _ => ⟨"ADD_Vx_kk", 0x7000, 0xF000⟩
  | .ldReg _ _ => ⟨"LD_Vx_Vy", 0x8000, 0xF00F⟩
  | .orReg _ _ => ⟨"OR_Vx_Vy", 0x8001, 0xF00F⟩
  | .andReg _ _ => ⟨"AND_Vx_Vy", 0x8002, 0xF00F⟩
  | .xorReg _ _ => ⟨"XOR_Vx_Vy", 0x8003, 0xF00F⟩
  | .addReg _ _ => ⟨"ADD_Vx_Vy", 0x8004, 0xF00F⟩
  | .subReg _ _ => ⟨"SUB_Vx_Vy", 0x8005, 0xF00F⟩
  | .shr _ => ⟨"SHR_Vx", 0x8006, 0xF00F⟩
  | .subn _ _ => ⟨"SUBN_Vx_Vy", 0x8007, 0xF00F⟩
  | .shl _ => ⟨"SHL_Vx", 0x800E, 0xF00F⟩
  | .sneReg _ _ => ⟨"SNE_Vx_Vy", 0x9000, 0xF00F⟩
  | .ldI _ => ⟨"LD_I_nnn", 0xA000, 0xF000⟩
  | .jpV0 _ => ⟨"JP_V0_nnn", 0xB000, 0xF000⟩
  | .rnd _ _ => ⟨"RND_Vx_kk", 0xC000, 0xF000⟩
  | .drw _ _ _ => ⟨"DRW_Vx_Vy_n", 0xD000, 0xF000⟩
  | .skp _ => ⟨"SKP_Vx", 0xE09E, 0xF0FF⟩
  | .sknp _ => ⟨"SKNP_Vx", 0xE0A1, 0xF0FF⟩
  | .ldVxDt _ => ⟨"LD_Vx_DT", 0xF007, 0xF0FF⟩
  | .ldVxK _ => ⟨"LD_Vx_K", 0xF00A, 0xF0FF⟩
  | .ldDtVx _ => ⟨"LD_DT_Vx", 0xF015, 0xF0FF⟩
  | .ldStVx _ => ⟨"LD_ST_Vx", 0xF018, 0xF0FF⟩
  | .addI _ => ⟨"ADD_I_Vx", 0xF01E, 0xF0FF⟩
  | .ldF _ => ⟨"LD_F_Vx", 0xF029, 0xF0FF⟩
  | .ldB _ => ⟨"LD_B_Vx", 0xF033, 0xF0FF⟩
  | .stRegs _ => ⟨"LD_I_ind_Vx", 0xF055, 0xF0FF⟩
  | .ldRegs _ => ⟨"LD_Vx_I_ind", 0xF065, 0xF0FF⟩

/-- One instruction of each of the first eighteen kinds, in the order of the opcode map. -/
def sampleInstrsLow : List Instr :=
  [.nop, .cls, .ret, .jp 0, .call 0, .seImm 0 0, .sneImm 0 0, .seReg 0 0, .ldImm 0 0, .addImm 0 0, .ldReg 0 0,
   .orReg 0 0, .andReg 0 0, .xorReg 0 0, .addReg 0 0, .subReg 0 0, .shr 0, .subn 0 0]

/-- One instruction of each of the other seventeen kinds, in the order of the opcode map. -/
def sampleInstrsHigh : List Instr :=
  [.shl 0, .sneReg 0 0, .ldI 0, .jpV0 0, .rnd 0 0, .drw 0 0 0, .skp 0, .sknp 0, .ldVxDt 0, .ldVxK 0, .ldDtVx 0,
   .ldStVx 0, .addI 0, .ldF 0, .ldB 0, .stRegs 0, .ldRegs 0]

/-- The opcode map, 35 rows (30_encoding.md R64). -/
def opcodeRows : List OpcodeRow := sampleInstrsLow.map Instr.row ++ sampleInstrsHigh.map Instr.row

/-- The decoder on an instruction numbered as spec/opcode_table.json numbers its bits: the one 16-bit word is laid
out as its two bytes in big-endian order (20_memory.md R43) and the decoder reads them. -/
def decodeTableWord (nbits w : Nat) : Option Instr :=
  let op := w % 2 ^ nbits
  match decodeBytes [BitVec.ofNat 8 (op / 256), BitVec.ofNat 8 op] with
  | .ok (i, _) => some i
  | .error _ => none

end Sys2Proof
end

