-- ==== Sys2Proof/Machine/Fetch.lean ====
section
/-! DEFINITION. Fetch (40_tick_and_control.md R81), and placing an opcode where the next fetch reads it. -/

namespace Sys2Proof.Machine

/-- The opcode at `pc`, high byte first, with `pc` advanced by 2; a fault that changes nothing when `pc + 1 > 4095`
(R81). Any `pc`, even or odd (20_memory.md R44). -/
def fetch (s : State) : Except Fault (Word × State) :=
  if s.pc.toNat + 1 > 4095 then .error (.fetchOutOfBounds s.pc)
  else .ok (bigEndian (s.mem.peek s.pc.toNat) (s.mem.peek (s.pc.toNat + 1)), s.setPc (s.pc + 2))

/-- The state with opcode `op` stored at address `a`, high byte first (20_memory.md R43), and `pc` there. -/
def State.placeOpcode (s : State) (a : Nat) (op : Word) : State :=
  (s.storeRun a [BitVec.ofNat 8 (op.toNat / 256), BitVec.ofNat 8 op.toNat]).setPc (BitVec.ofNat 16 a)

/-- Where `placeOpcode` puts the next opcode: at `pc`, or at the entry point 512 when nothing can be fetched at `pc`. -/
def State.fetchSlot (s : State) : Nat := if s.pc.toNat + 1 > 4095 then 512 else s.pc.toNat

end Sys2Proof.Machine
end

