-- ==== Sys2Proof/Machine/Execute.lean ====
section
/-! DEFINITION. Execute: decode the fetched opcode and run the one instruction it is (40_tick_and_control.md R82). -/

namespace Sys2Proof.Machine

/-- The instruction of `op` run on the state after fetch; `UnsupportedOpcode(op)` when no row matches
(40_tick_and_control.md R82; 30_encoding.md R65). The decoder is given a whole word, so it never answers
`truncated`. -/
def execute (op : Word) (s : State) : Result :=
  match decodeOp op with
  | .ok i => exec i s
  | .error _ => raise (.unsupportedOpcode op)

end Sys2Proof.Machine
end

