-- ==== Sys2Proof/Machine/Step.lean ====
section
/-! DEFINITION. One step of the core: one `tick()` (40_tick_and_control.md R80). -/

namespace Sys2Proof.Machine

/-- `tick()`: fetch, then execute, exactly one instruction (R80). A program fault ends the run (60_exceptions.md
R165, log 3); the state it leaves is given by `tick` in Machine/HostOps.lean. -/
def step (s : State) : Host.Outcome State Fault Refusal :=
  match fetch s with
  | .error f => raise f
  | .ok (op, t) => execute op t

/-- The state with the opcode `w` (its bits above `nbits` zero) stored where the next step fetches it: at `pc`, or at
512 with `pc` set there when nothing can be fetched at `pc` (log 19). -/
def State.withFetchWord (s : State) (nbits w : Nat) : State :=
  s.placeOpcode s.fetchSlot (BitVec.ofNat 16 (w % 2 ^ nbits))

end Sys2Proof.Machine
end

