-- ==== Sys2Proof/Machine/HostOps.lean ====
section
/-! DEFINITION. The host-facing operations, each an atomic transition of the whole state with a reply
(00_scope.md R2, R4, R10; 60_exceptions.md R160 to R174; 70_reset_and_hazards.md R190 to R192). -/

namespace Sys2Proof.Machine

/-- The numeric code of a fault cause (60_exceptions.md R161, R162). -/
def Fault.code : Fault → Nat
  | .fetchOutOfBounds _ => 1
  | .unsupportedOpcode _ => 2
  | .stackOverflow => 3
  | .stackUnderflow => 4
  | .memOutOfBounds _ => 5
  | .keyIndexOutOfRange _ => 6
  | .invalidKeyIndex _ => 7
  | .imageTooLarge _ => 8

/-- What an operation returns (00_scope.md R10): `Ok` without or with a result, or a fault. -/
inductive Reply where
  | ok
  | okFlag (b : Bool)
  | okDisplay (pixels : List Bool)
  | fault (f : Fault)
  | refused (r : Refusal)
  deriving DecidableEq, Repr

/-- The state an operation leaves and what it returns. -/
structure OpOutcome where
  state : State
  reply : Reply
  deriving DecidableEq, Repr

/-- `construct()` of a machine whose parameter `FONT` is `font`: everything zero or clear, `pc` at 512, the font copied
to 0..79 (70_reset_and_hazards.md R190; 10_state.md R26, R31; 00_scope.md R5, log 1). With the default font it is
`State.reset`. -/
def construct (font : Font) : State := State.reset.storeRun 0 font.toList

/-- `tick()` with the state it leaves (40_tick_and_control.md R80): after `FetchOutOfBounds` the state as it was,
after any other fault the state as fetch left it, `pc` advanced and all else unchanged (60_exceptions.md R164,
decisions D4 and D5, log 3). -/
def tick (s : State) : OpOutcome :=
  match fetch s with
  | .error f => ⟨s, .fault f⟩
  | .ok (op, t) =>
    match execute op t with
    | .next u => ⟨u, .ok⟩
    | .fault f => ⟨t, .fault f⟩
    | .refused r => ⟨t, .refused r⟩

/-- One step down, stopping at 0 (60_exceptions.md R170). -/
def decay (b : Byte) : Byte := if b.toNat > 0 then b - 1 else b

/-- `tick_timers()`: both timers decay by one; the answer, `tone_stop`, is whether the sound timer goes from 1 to 0
(60_exceptions.md R170, R171, decision D14, log 18). -/
def tickTimers (s : State) : OpOutcome :=
  ⟨(s.setDt (decay s.dt)).setSt (decay s.st), .okFlag (s.st == 1)⟩

/-- `sound_should_play()`: whether `ST > 0` (60_exceptions.md R171). -/
def soundShouldPlay (s : State) : Bool := decide (s.st.toNat > 0)

/-- `get_display()`: the 2048 pixels, row-major (60_exceptions.md R173). -/
def getDisplay (s : State) : List Bool := s.fb.toList

/-- `set_key(index, pressed)`: one entry of the key latch; fails when `index > 15` and changes nothing
(60_exceptions.md R172). -/
def setKey (index : Nat) (pressed : Bool) (s : State) : OpOutcome :=
  if h : index < 16 then ⟨s.setKeys (s.keys.set index pressed), .ok⟩ else ⟨s, .fault (.invalidKeyIndex index)⟩

/-- The longest program image (00_scope.md R5 `MAX_IMAGE`). -/
def maxImage : Nat := 3584

/-- `load(bytes)`: the image copied to 512 and up, nothing else changed; refused whole when it is longer than 3584
bytes (70_reset_and_hazards.md R192). -/
def load (image : List Byte) (s : State) : OpOutcome :=
  if image.length > maxImage then ⟨s, .fault (.imageTooLarge image.length)⟩ else ⟨s.storeRun 512 image, .ok⟩

/-- `reset()`: the state after `construct()`, the font re-seeded (70_reset_and_hazards.md R191). The model's own counter of free draws goes
on, so that no draw after a reset is one from before it (log 2). -/
def resetOp (font : Font) (s : State) : OpOutcome := ⟨{ construct font with draws := s.draws }, .ok⟩

/-- The operations the host may invoke on a machine (00_scope.md R2); `construct` makes one. -/
inductive HostOp where
  | reset
  | load (image : List Byte)
  | tick
  | tickTimers
  | getDisplay
  | setKey (index : Nat) (pressed : Bool)
  | soundShouldPlay
  deriving DecidableEq, Repr

/-- One operation of the host on a machine of font `font`: the state it leaves and its reply (60_exceptions.md R174).
The font is a parameter of the machine and no state; only `reset` reads it (10_state.md R33). -/
def applyOp (font : Font) : HostOp → State → OpOutcome
  | .reset, s => resetOp font s
  | .load image, s => load image s
  | .tick, s => tick s
  | .tickTimers, s => tickTimers s
  | .getDisplay, s => ⟨s, .okDisplay (getDisplay s)⟩
  | .setKey index pressed, s => setKey index pressed s
  | .soundShouldPlay, s => ⟨s, .okFlag (soundShouldPlay s)⟩

/-- The state after a sequence of operations, whatever they reply: the host's schedule is the list
(60_exceptions.md R165, R174, decision D19, log 14). -/
def runOps (font : Font) : List HostOp → State → State
  | [], s => s
  | op :: ops, s => runOps font ops (applyOp font op s).state

end Sys2Proof.Machine
end

