-- ==== Sys2Proof/Safety.lean ====
section
/-! DEFINITION. What counts as a safe run, the invariant of the core, and the words the statements use for what an
instruction leaves unchanged. -/

namespace Sys2Proof.Machine

/-- A step that ends in a next state: no fault, no refusal (60_exceptions.md R165: a program fault ends the run). -/
def State.StepsOn (s : State) : Prop := ∃ t, step s = .next t

/-- The invariant of the core: memory is in canonical form, `pc` is at most 4350, and every live stack slot holds the
address after a CALL, 2 to 4096 (10_state.md R24, R25; 40_tick_and_control.md R84). -/
structure State.Inv (s : State) : Prop where
  memory : s.mem.wf = true
  pcBound : s.pc.toNat ≤ 4350
  returns : ∀ k (h : k < 16), k < s.sp.val → 2 ≤ (s.stack[k]).toNat ∧ (s.stack[k]).toNat ≤ 4096

/-- Every piece of state has the value of the reset table, for a machine of font `font` (10_state.md R31). -/
structure State.AtReset (font : Font) (s : State) : Prop where
  registers : ∀ x, s.reg x = 0
  index : s.i = 0
  counter : s.pc = 512
  stackPointer : s.sp = 0
  slots : ∀ k (h : k < 16), s.stack[k] = 0
  fontBytes : ∀ a (h : a < 80), s.readByte a = some font[a]
  otherBytes : ∀ a, 80 ≤ a → a ≤ 4095 → s.readByte a = some 0
  pixels : ∀ px py, s.pixel px py = false
  latch : ∀ k, s.key k = false
  delay : s.dt = 0
  sound : s.st = 0

/-- A part of the state besides the general registers. -/
inductive Part where
  | index | counter | stack | memory | display | keys | delay | sound | draws
  deriving DecidableEq, Repr

/-- The part is the same in both states: memory as every byte reads through `readByte`, the display as every pixel
reads, the stack with its pointer and all its slots. -/
def Part.Same : Part → State → State → Prop
  | .index, s, t => t.i = s.i
  | .counter, s, t => t.pc = s.pc
  | .stack, s, t => t.sp = s.sp ∧ t.stack = s.stack
  | .memory, s, t => ∀ a, t.readByte a = s.readByte a
  | .display, s, t => ∀ x y, t.pixel x y = s.pixel x y
  | .keys, s, t => t.keys = s.keys
  | .delay, s, t => t.dt = s.dt
  | .sound, s, t => t.st = s.st
  | .draws, s, t => t.draws = s.draws

/-- Every general register outside `regs` and every part outside `parts` is unchanged (00_scope.md R9). -/
def KeepsAllBut (regs : List Reg) (parts : List Part) (s t : State) : Prop :=
  (∀ z, z ∉ regs → t.reg z = s.reg z) ∧ ∀ p, p ∉ parts → p.Same s t

/-- Every byte of memory reads as before except the `len` bytes from address `base`. -/
def KeepsMemoryOutside (base len : Nat) (s t : State) : Prop :=
  ∀ a, ¬(base ≤ a ∧ a < base + len) → t.readByte a = s.readByte a

/-- The two bytes at `pc` exist and make the opcode `op`, high byte first (20_memory.md R43). -/
def State.OpcodeAtPc (s : State) (op : Word) : Prop :=
  ∃ hi lo, s.readByte s.pc.toNat = some hi ∧ s.readByte (s.pc.toNat + 1) = some lo ∧
    op.toNat = hi.toNat * 256 + lo.toNat

/-- The opcode at `pc` is a `JP` to its own address: the customary end of a program (70_reset_and_hazards.md R194). -/
def State.Finished (s : State) : Prop :=
  ∃ op nnn, s.OpcodeAtPc op ∧ decodeOp op = .ok (.jp nnn) ∧ nnn.toNat = s.pc.toNat

/-- The general registers an instruction may write: its destination, and `VF` where it is written as a flag
(10_state.md R21). -/
def destRegs : Instr → List Reg
  | .ldImm x _ | .addImm x _ | .ldReg x _ | .orReg x _ | .andReg x _ | .xorReg x _ | .rnd x _ | .ldVxDt x
  | .ldVxK x => [x]
  | .addReg x _ | .subReg x _ | .shr x | .subn x _ | .shl x => [x, VF]
  | .drw _ _ _ => [VF]
  | .ldRegs x => (List.finRange 16).filter fun k => decide (k ≤ x)
  | .nop | .cls | .ret | .jp _ | .call _ | .seImm _ _ | .sneImm _ _ | .seReg _ _ | .sneReg _ _ | .ldI _ | .jpV0 _
  | .skp _ | .sknp _ | .ldDtVx _ | .ldStVx _ | .addI _ | .ldF _ | .ldB _ | .stRegs _ => []

/-- For one of the six skip instructions, whether it skips in state `s`; none for every other instruction and for a key
skip whose register names no key (40_tick_and_control.md R87 to R92; 44_timer_key.md R145, R146, R151). -/
def State.skipCondition (s : State) : Instr → Option Bool
  | .seImm x kk => some (decide (s.reg x = kk))
  | .sneImm x kk => some (decide (s.reg x ≠ kk))
  | .seReg x y => some (decide (s.reg x = s.reg y))
  | .sneReg x y => some (decide (s.reg x ≠ s.reg y))
  | .skp x => s.keys[(s.reg x).toNat]?
  | .sknp x => s.keys[(s.reg x).toNat]?.map (!·)
  | .nop | .cls | .ret | .jp _ | .call _ | .ldImm _ _ | .addImm _ _ | .ldReg _ _ | .orReg _ _ | .andReg _ _
  | .xorReg _ _ | .addReg _ _ | .subReg _ _ | .shr _ | .subn _ _ | .shl _ | .ldI _ | .jpV0 _ | .rnd _ _ | .drw _ _ _
  | .ldVxDt _ | .ldVxK _ | .ldDtVx _ | .ldStVx _ | .addI _ | .ldF _ | .ldB _ | .stRegs _ | .ldRegs _ => none

/-- The condition of the spec's fault table under which a tick ends in program fault `f` (60_exceptions.md R161): the
fetch fails, or the opcode `op` at `pc` is on no row, or the instruction it is meets its one fault condition. -/
def State.FaultsWith (s : State) (f : Fault) : Prop :=
  (s.pc.toNat + 1 > 4095 ∧ f = .fetchOutOfBounds s.pc) ∨
  ∃ op, s.OpcodeAtPc op ∧
    (((∀ r ∈ opcodeRows, r.selects op = false) ∧ f = .unsupportedOpcode op) ∨
     (∃ nnn, decodeOp op = .ok (.call nnn) ∧ s.sp = 16 ∧ f = .stackOverflow) ∨
     (decodeOp op = .ok .ret ∧ s.sp = 0 ∧ f = .stackUnderflow) ∨
     (f = .memOutOfBounds (max s.i.toNat 4096) ∧
       ((∃ x y n, decodeOp op = .ok (.drw x y n) ∧ 0 < n ∧ s.i.toNat + n - 1 > 4095) ∨
        (∃ x, decodeOp op = .ok (.ldB x) ∧ s.i.toNat + 2 > 4095) ∨
        (∃ x, decodeOp op = .ok (.stRegs x) ∧ s.i.toNat + x.val > 4095) ∨
        (∃ x, decodeOp op = .ok (.ldRegs x) ∧ s.i.toNat + x.val > 4095))) ∨
     (∃ x, (decodeOp op = .ok (.skp x) ∨ decodeOp op = .ok (.sknp x)) ∧ (s.reg x).toNat > 15 ∧
       f = .keyIndexOutOfRange (s.reg x)))

/-- Whether the sprite of the `n` bytes from `I` up, drawn at column `x0` and row `y0`, has a 1 bit that falls on pixel
`(px, py)` (43_display.md R136). -/
def State.spriteHits (s : State) (n x0 y0 : Nat) (px : Fin 64) (py : Fin 32) : Bool :=
  (List.range n).any fun row => (List.range 8).any fun col =>
    spriteBit (s.mem.peek (s.base + row)) col && decide ((x0 + col) % 64 = px.val) && decide ((y0 + row) % 32 = py.val)

end Sys2Proof.Machine
end

