-- ==== Sys2Proof/Certificates/Slice0/Obligations.lean ====
section
/-! DEFINITION. The statements about the model, from the numbered rules of spec/. `KeepsAllBut regs parts s t` says that
every general register outside `regs` and every part of the state outside `parts` is unchanged; where a statement says
it, it says the frame rule (00_scope.md R9, the spec's decision D11) for that instruction. -/

open Sys2Proof Sys2Proof.Machine

/-! Encoding. -/

/-- Words written out from the encodings of 30_encoding.md R64 decode to the instructions they stand for, and illegal
words are rejected with their raw value (R65). -/
def Obligations.WrittenOutWordsDecode : Prop :=
  decodeOp 0x0000 = .ok .nop ∧ decodeOp 0x00EE = .ok .ret ∧ decodeOp 0x1ABC = .ok (.jp 0xABC) ∧
  decodeOp 0x3342 = .ok (.seImm 3 0x42) ∧ decodeOp 0x9120 = .ok (.sneReg 1 2) ∧ decodeOp 0x8F36 = .ok (.shr 15) ∧
  decodeOp 0x8F06 = .ok (.shr 15) ∧ decodeOp 0x812E = .ok (.shl 1) ∧ decodeOp 0xBFFF = .ok (.jpV0 0xFFF) ∧
  decodeOp 0xC30F = .ok (.rnd 3 0x0F) ∧ decodeOp 0xD012 = .ok (.drw 0 1 2) ∧ decodeOp 0xE2A1 = .ok (.sknp 2) ∧
  decodeOp 0xF30A = .ok (.ldVxK 3) ∧ decodeOp 0xF265 = .ok (.ldRegs 2) ∧
  decodeOp 0x5121 = .error (.unsupported 0x5121) ∧ decodeOp 0xF1FF = .error (.unsupported 0xF1FF)

/-- Decoding the encoding of a well-formed instruction gives it back, every operand at every value (30_encoding.md
R71, derived there). -/
def Obligations.DecodeInvertsEncode : Prop :=
  ∀ i : Instr, i.wellFormed = true → decodeOp (encode i) = .ok i

/-- What the decoder reads is well-formed and encodes to the word it was read from, but that SHR and SHL encode with
`y = 0` (30_encoding.md R71, derived there). -/
def Obligations.EncodeInvertsDecode : Prop :=
  ∀ (op : Word) (i : Instr), decodeOp op = .ok i →
    i.wellFormed = true ∧
    (encode i = op ∨ ((∃ x, i = .shr x ∨ i = .shl x) ∧ encode i = op &&& 0xFF0F))

/-- The 35 patterns are pairwise disjoint, and a word decodes to an instruction of the one row whose
`op & mask = match`; when there is none the word is rejected with its raw value (30_encoding.md R64, R65). -/
def Obligations.DecoderAgreesWithTheOpcodeMap : Prop :=
  (∀ (op : Word), ∀ r ∈ opcodeRows, ∀ r' ∈ opcodeRows, r.selects op = true → r'.selects op = true → r = r') ∧
  (∀ (op : Word), ∀ r ∈ opcodeRows, r.selects op = true ↔ ∃ i, decodeOp op = .ok i ∧ i.row = r) ∧
  (∀ (op : Word), decodeOp op = .error (.unsupported op) ↔ ∀ r ∈ opcodeRows, r.selects op = false)

/-- SHR and SHL accept all 16 values of the field `y`, which all give the same instruction; no other field of any
pattern is ignored: two different words that decode to one instruction are words of SHR or of SHL that differ in
`y` only (30_encoding.md R68). -/
def Obligations.OnlyShiftsIgnoreAField : Prop :=
  (∀ x y : Reg, decodeOp (packXYN 0x8 x.val y.val 0x6) = .ok (.shr x) ∧
    decodeOp (packXYN 0x8 x.val y.val 0xE) = .ok (.shl x)) ∧
  ∀ (op op' : Word) (i : Instr), decodeOp op = .ok i → decodeOp op' = .ok i → op ≠ op' →
    (∃ x, i = .shr x ∨ i = .shl x) ∧ op &&& 0xFF0F = op' &&& 0xFF0F

/-- The illegal words, group by group (30_encoding.md R66; that 5xyN and 9xyN with N not 0 are illegal is the spec's
decision D22). -/
def Obligations.IllegalWordsAreTheListedGroups : Prop :=
  ∀ op : Word, decodeOp op = .error (.unsupported op) ↔
    (bits 15 12 op = 0x0 ∧ op ≠ 0x0000 ∧ op ≠ 0x00E0 ∧ op ≠ 0x00EE) ∨
    (bits 15 12 op = 0x5 ∧ bits 3 0 op ≠ 0) ∨
    (bits 15 12 op = 0x8 ∧ bits 3 0 op ∈ [0x8, 0x9, 0xA, 0xB, 0xC, 0xD, 0xF]) ∨
    (bits 15 12 op = 0x9 ∧ bits 3 0 op ≠ 0) ∨
    (bits 15 12 op = 0xE ∧ bits 7 0 op ∉ [0x9E, 0xA1]) ∨
    (bits 15 12 op = 0xF ∧ bits 7 0 op ∉ [0x07, 0x0A, 0x15, 0x18, 0x1E, 0x29, 0x33, 0x55, 0x65])

/-! The step. -/

/-- When the two bytes at `pc` make the opcode `op`, high byte first, and `op` decodes to `i`, the step is `i` run on
the state with `pc` advanced by 2 (40_tick_and_control.md R80 to R82; 20_memory.md R43). -/
def Obligations.StepRunsTheDecodedInstruction : Prop :=
  ∀ (s : State) (op : Word) (i : Instr), s.OpcodeAtPc op → decodeOp op = .ok i →
    step s = exec i (s.setPc (s.pc + 2))

/-- A word of no row of the opcode map faults with its raw value when it is executed, after fetch has advanced `pc`
(30_encoding.md R65). -/
def Obligations.UnmappedOpcodeFaults : Prop :=
  ∀ (s : State) (op : Word), s.OpcodeAtPc op → (∀ r ∈ opcodeRows, r.selects op = false) →
    step s = .fault (.unsupportedOpcode op) ∧ tick s = ⟨s.setPc (s.pc + 2), .fault (.unsupportedOpcode op)⟩

/-- With `pc` at 4095 or above the fetch faults and nothing changes (40_tick_and_control.md R81; the exact bound is the
spec's decision D3, the state left its decision D4). -/
def Obligations.FetchBeyondMemoryFaults : Prop :=
  ∀ s : State, 4095 ≤ s.pc.toNat →
    step s = .fault (.fetchOutOfBounds s.pc) ∧ tick s = ⟨s, .fault (.fetchOutOfBounds s.pc)⟩

/-- A step faults exactly under the conditions of the fault table, with the information it gives (60_exceptions.md
R161; the payloads are the spec's decision D12, the key index fault its D8, the order of check and access its D5). -/
def Obligations.StepFaultsExactlyAsTabled : Prop :=
  ∀ (s : State) (f : Fault), step s = .fault f ↔ s.FaultsWith f

/-- Every tick in every state has an outcome, Ok or a fault: the model refuses nothing (93_implementation_defined.md,
part 1). -/
def Obligations.NoStepIsRefused : Prop :=
  ∀ (s : State) (r : Refusal), step s ≠ .refused r

/-- A faulting tick leaves the state as it was when the fetch failed, and otherwise with `pc` advanced by 2 and all else
unchanged (60_exceptions.md R164, the spec's decisions D4 and D5). -/
def Obligations.FaultingTickIsPrecise : Prop :=
  ∀ (s : State) (f : Fault), step s = .fault f →
    (tick s).reply = .fault f ∧
    (f = .fetchOutOfBounds s.pc ∧ (tick s).state = s ∨
     (∀ w, f ≠ .fetchOutOfBounds w) ∧ (tick s).state = s.setPc (s.pc + 2))

/-! Invariants. -/

/-- The state after reset satisfies the invariant: `State.reset`, and what `construct()` makes with any font. The clause
on `pc` is 10_state.md R31 and R24; the clause on memory, its canonical form, is the model's own (log 24, DESIGN CHOICE),
and the font is the model's argument (00_scope.md R5, decision D1, log 1). -/
def Obligations.ResetSatisfiesTheInvariant : Prop :=
  State.reset.Inv ∧ ∀ font : Font, (construct font).Inv

/-- Every step keeps the invariant: memory in canonical form, `pc` at most 4350, live return addresses 2 to 4096
(10_state.md R24, derived there; the canonical form is the model's own, log 24). -/
def Obligations.StepKeepsTheInvariant : Prop :=
  ∀ s t : State, s.Inv → step s = .next t → t.Inv

/-- Every sequence of host operations keeps the invariant, ticks that fault and operations that are refused to the host
included, whatever the font (10_state.md R24; 60_exceptions.md R174). The canonical form of memory is the model's own
(log 24, DESIGN CHOICE); the state a faulting tick leaves, from which the run goes on, is the spec's decision D4
(60_exceptions.md R164, log 3). -/
def Obligations.HostOperationsKeepTheInvariant : Prop :=
  ∀ (font : Font) (ops : List HostOp) (s : State), s.Inv → (runOps font ops s).Inv

/-! Which instructions may change what. -/

/-- A general register changes only as the destination of the instruction, or `VF` as its flag; `destRegs` lists both
(10_state.md R20, R21). -/
def Obligations.RegistersChangeOnlyWhereNamed : Prop :=
  ∀ (i : Instr) (s t : State), exec i s = .next t → ∀ z, z ∉ destRegs i → t.reg z = s.reg z

/-- `I` is written by Annn, Fx1E and Fx29 only (10_state.md R22; 42_index_memory.md R126). -/
def Obligations.IndexIsWrittenByThreeInstructionsOnly : Prop :=
  ∀ (i : Instr) (s t : State), exec i s = .next t → t.i ≠ s.i →
    (∃ nnn, i = .ldI nnn) ∨ (∃ x, i = .addI x) ∨ ∃ x, i = .ldF x

/-- The stack and its pointer are written by 2nnn and 00EE only (10_state.md R25). -/
def Obligations.StackIsWrittenByCallAndReturnOnly : Prop :=
  ∀ (i : Instr) (s t : State), exec i s = .next t → (t.sp ≠ s.sp ∨ t.stack ≠ s.stack) → i = .ret ∨ ∃ nnn, i = .call nnn

/-- Memory is written by Fx33 and Fx55 only (20_memory.md R40). -/
def Obligations.MemoryIsWrittenByBcdAndStoreOnly : Prop :=
  ∀ (i : Instr) (s t : State), exec i s = .next t → (∃ a, t.readByte a ≠ s.readByte a) →
    ∃ x, i = .ldB x ∨ i = .stRegs x

/-- The display is written by 00E0 and Dxyn only (10_state.md R27). -/
def Obligations.DisplayIsWrittenByClearAndDrawOnly : Prop :=
  ∀ (i : Instr) (s t : State), exec i s = .next t → (∃ x y, t.pixel x y ≠ s.pixel x y) →
    i = .cls ∨ ∃ x y n, i = .drw x y n

/-- No tick writes the key latch, whatever its outcome (10_state.md R28). -/
def Obligations.NoTickWritesTheKeys : Prop :=
  ∀ s : State, (tick s).state.keys = s.keys

/-- Instructions never count a timer down: `DT` is written by Fx15 only and `ST` by Fx18 only (10_state.md R29). -/
def Obligations.TimersAreWrittenByTheirInstructionOnly : Prop :=
  ∀ (i : Instr) (s t : State), exec i s = .next t →
    (t.dt ≠ s.dt → ∃ x, i = .ldDtVx x) ∧ (t.st ≠ s.st → ∃ x, i = .ldStVx x)

/-- An instruction other than Cxkk neither reads nor counts the free draws: from states that differ in the count alone
it does the same (00_scope.md R5; the count is the model's own field, log 2). -/
def Obligations.OnlyRandomReadsTheDraws : Prop :=
  ∀ (i : Instr) (s : State) (n : Nat), (∀ x kk, i ≠ .rnd x kk) →
    (∀ t, exec i s = .next t → exec i { s with draws := n } = .next { t with draws := n }) ∧
    (∀ f, exec i s = .fault f → exec i { s with draws := n } = .fault f)

/-! Control transfer. -/

/-- NOP does nothing; the only change of its tick is that `pc` advances by 2 (40_tick_and_control.md R83). -/
def Obligations.NopOnlyAdvancesPc : Prop :=
  ∀ s : State, exec .nop s = .next s ∧ (s.OpcodeAtPc 0x0000 → step s = .next (s.setPc (s.pc + 2)))

/-- JP sets `pc` to its target, any target, and changes nothing else (40_tick_and_control.md R85). -/
def Obligations.JumpSetsPc : Prop :=
  ∀ (s : State) (nnn : Imm12), ∃ t, exec (.jp nnn) s = .next t ∧ t.pc.toNat = nnn.toNat ∧ KeepsAllBut [] [.counter] s t

/-- JP V0 sets `pc` to the plain sum of `V[0]` and `nnn`, not reduced (40_tick_and_control.md R91; that `pc` is not
masked is the spec's decision D23). -/
def Obligations.IndexedJumpAddsV0 : Prop :=
  ∀ (s : State) (nnn : Imm12), ∃ t, exec (.jpV0 nnn) s = .next t ∧ t.pc.toNat = (s.reg 0).toNat + nnn.toNat ∧
    KeepsAllBut [] [.counter] s t

/-- CALL pushes `pc`, which is past the CALL already, and jumps; with all 16 slots live it faults
(40_tick_and_control.md R86). -/
def Obligations.CallPushesTheReturnAddress : Prop :=
  ∀ (s : State) (nnn : Imm12),
    (∀ h : s.sp.val < 16, ∃ t, exec (.call nnn) s = .next t ∧ t.stack[s.sp.val] = s.pc ∧
      (∀ k (hk : k < 16), k ≠ s.sp.val → t.stack[k] = s.stack[k]) ∧ t.sp.val = s.sp.val + 1 ∧
      t.pc.toNat = nnn.toNat ∧ KeepsAllBut [] [.counter, .stack] s t) ∧
    (s.sp = 16 → exec (.call nnn) s = .fault .stackOverflow)

/-- RET takes `pc` from the top slot, which keeps its contents, and lowers `sp`; with the stack empty it faults
(40_tick_and_control.md R84). -/
def Obligations.ReturnPopsTheReturnAddress : Prop :=
  ∀ s : State,
    (∀ h : 0 < s.sp.val, ∃ t, exec .ret s = .next t ∧ t.pc = s.stack[s.sp.val - 1]'(by omega) ∧
      t.sp.val = s.sp.val - 1 ∧ t.stack = s.stack ∧ KeepsAllBut [] [.counter, .stack] s t) ∧
    (s.sp = 0 → exec .ret s = .fault .stackUnderflow)

/-- A RET that finds the stack as a CALL left it returns to the instruction after the CALL with the stack pointer as
before it (40_tick_and_control.md R86; 95_test_vectors.md S7). -/
def Obligations.ReturnUndoesCall : Prop :=
  ∀ (s t t' : State) (nnn : Imm12), exec (.call nnn) s = .next t → t'.sp = t.sp → t'.stack = t.stack →
    ∃ u, exec .ret t' = .next u ∧ u.pc = s.pc ∧ u.sp = s.sp

/-- The four register skips: `pc` goes up by 2 once more when the condition holds and is left when it does not,
and nothing else changes (40_tick_and_control.md R87, R88, R89, R90). -/
def Obligations.RegisterSkipsAddTwo : Prop :=
  ∀ (s : State) (x y : Reg) (kk : Byte),
    (∃ t, exec (.seImm x kk) s = .next t ∧ t.pc = (if s.reg x = kk then s.pc + 2 else s.pc) ∧
      KeepsAllBut [] [.counter] s t) ∧
    (∃ t, exec (.sneImm x kk) s = .next t ∧ t.pc = (if s.reg x ≠ kk then s.pc + 2 else s.pc) ∧
      KeepsAllBut [] [.counter] s t) ∧
    (∃ t, exec (.seReg x y) s = .next t ∧ t.pc = (if s.reg x = s.reg y then s.pc + 2 else s.pc) ∧
      KeepsAllBut [] [.counter] s t) ∧
    (∃ t, exec (.sneReg x y) s = .next t ∧ t.pc = (if s.reg x ≠ s.reg y then s.pc + 2 else s.pc) ∧
      KeepsAllBut [] [.counter] s t)

/-- A tick of any of the six skips leaves `pc` 4 above its address when the condition holds and 2 above when it does not,
whatever the skipped word is: it is not fetched, decoded or checked. The sum is not reduced: a skip at 4094 leaves 4098,
where the next tick faults at fetch (40_tick_and_control.md R92). -/
def Obligations.SkippedWordIsNeverDecoded : Prop :=
  ∀ (s : State) (op : Word) (i : Instr) (c : Bool), s.OpcodeAtPc op → decodeOp op = .ok i →
    s.skipCondition i = some c →
    ∃ t, step s = .next t ∧ t.pc.toNat = s.pc.toNat + (if c = true then 4 else 2) ∧ KeepsAllBut [] [.counter] s t ∧
      (s.pc = 4094 → step t = .fault (.fetchOutOfBounds t.pc))

/-- A state whose next opcode is a JP to its own address is unchanged by a tick, and so by every further one
(70_reset_and_hazards.md R194; that this counts as the end of a run is the spec's decision D27). -/
def Obligations.SelfJumpLeavesTheStateUnchanged : Prop :=
  ∀ s : State, s.Finished → step s = .next s

/-! Register load, arithmetic, logic, shift, random. -/

/-- The loads, the immediate add and the three logic operations: the destination gets the value of the rule, and no
other register (`VF` neither, unless it is the destination) and nothing else changes (41_alu.md R102 to R107; that nothing
else changes is the frame rule, 00_scope.md R9, the spec's decision D11, log 12). -/
def Obligations.LoadsAddImmediateAndLogic : Prop :=
  ∀ (s : State) (x y : Reg) (kk : Byte),
    (∃ t, exec (.ldImm x kk) s = .next t ∧ t.reg x = kk ∧ KeepsAllBut [x] [] s t) ∧
    (∃ t, exec (.addImm x kk) s = .next t ∧ (t.reg x).toNat = ((s.reg x).toNat + kk.toNat) % 256 ∧
      KeepsAllBut [x] [] s t) ∧
    (∃ t, exec (.ldReg x y) s = .next t ∧ t.reg x = s.reg y ∧ KeepsAllBut [x] [] s t) ∧
    (∃ t, exec (.orReg x y) s = .next t ∧ (t.reg x).toNat = (s.reg x).toNat ||| (s.reg y).toNat ∧
      KeepsAllBut [x] [] s t) ∧
    (∃ t, exec (.andReg x y) s = .next t ∧ (t.reg x).toNat = (s.reg x).toNat &&& (s.reg y).toNat ∧
      KeepsAllBut [x] [] s t) ∧
    (∃ t, exec (.xorReg x y) s = .next t ∧ (t.reg x).toNat = (s.reg x).toNat ^^^ (s.reg y).toNat ∧
      KeepsAllBut [x] [] s t)

/-- ADD, SUB and SUBN of registers: `VF` ends as the carry or the no-borrow of the operands as they were, and any other
destination as the result modulo 256 (41_alu.md R108, R109, R111). That the flag is written last, so that with `x = 15`
it is what stays, is the spec's decision D7 (log 5). -/
def Obligations.AddAndSubtractSetCarryAndBorrow : Prop :=
  ∀ (s : State) (x y : Reg),
    (∃ t, exec (.addReg x y) s = .next t ∧
      (x ≠ VF → (t.reg x).toNat = ((s.reg x).toNat + (s.reg y).toNat) % 256) ∧
      (t.reg VF).toNat = (if (s.reg x).toNat + (s.reg y).toNat > 255 then 1 else 0) ∧ KeepsAllBut [x, VF] [] s t) ∧
    (∃ t, exec (.subReg x y) s = .next t ∧
      (x ≠ VF → ((t.reg x).toNat : Int) = ((s.reg x).toNat - (s.reg y).toNat : Int) % 256) ∧
      (t.reg VF).toNat = (if (s.reg x).toNat ≥ (s.reg y).toNat then 1 else 0) ∧ KeepsAllBut [x, VF] [] s t) ∧
    (∃ t, exec (.subn x y) s = .next t ∧
      (x ≠ VF → ((t.reg x).toNat : Int) = ((s.reg y).toNat - (s.reg x).toNat : Int) % 256) ∧
      (t.reg VF).toNat = (if (s.reg y).toNat ≥ (s.reg x).toNat then 1 else 0) ∧ KeepsAllBut [x, VF] [] s t)

/-- SHR and SHL move `V[x]` by one bit and put the bit that leaves into `VF`, the value 0 or 1; with `x = 15` the shift
acts on the flag just written, so `VF` ends 0 after SHR and twice the old bit 7 after SHL (41_alu.md R110, R112; the
case `x = 15` is the spec's decision D7, log 5). -/
def Obligations.ShiftsMoveOneBitIntoTheFlag : Prop :=
  ∀ (s : State) (x : Reg),
    (∃ t, exec (.shr x) s = .next t ∧
      (x ≠ VF → (t.reg x).toNat = (s.reg x).toNat / 2 ∧ (t.reg VF).toNat = (s.reg x).toNat % 2) ∧
      (x = VF → (t.reg VF).toNat = 0) ∧ KeepsAllBut [x, VF] [] s t) ∧
    (∃ t, exec (.shl x) s = .next t ∧
      (x ≠ VF → (t.reg x).toNat = (s.reg x).toNat * 2 % 256 ∧ (t.reg VF).toNat = (s.reg x).toNat / 128) ∧
      (x = VF → (t.reg VF).toNat = (s.reg VF).toNat / 128 * 2) ∧ KeepsAllBut [x, VF] [] s t)

/-- RND puts a fresh draw AND `kk` into `V[x]`, whatever the draw is, so no bit outside `kk` is set (41_alu.md R113; the
free draw is the spec's decision D2, and the count of draws is the model's, log 2). -/
def Obligations.RandomIsADrawUnderTheMask : Prop :=
  ∀ (s : State) (x : Reg) (kk : Byte), ∃ t, exec (.rnd x kk) s = .next t ∧
    t.reg x = Config.randomByte s.draws &&& kk ∧ t.reg x &&& ~~~kk = 0 ∧ t.draws = s.draws + 1 ∧
    KeepsAllBut [x] [.draws] s t

/-! Index register and memory. -/

/-- LD I, ADD I and LD F: `I` becomes `nnn`, the sum modulo 65536, five times the whole byte; no register, so no flag,
changes (42_index_memory.md R120, R121, R122; the modulus is the spec's decision D25, the unmasked byte its D24,
log 13). -/
def Obligations.IndexRegisterResults : Prop :=
  ∀ (s : State) (x : Reg) (nnn : Imm12),
    (∃ t, exec (.ldI nnn) s = .next t ∧ t.i.toNat = nnn.toNat ∧ KeepsAllBut [] [.index] s t) ∧
    (∃ t, exec (.addI x) s = .next t ∧ t.i.toNat = (s.i.toNat + (s.reg x).toNat) % 65536 ∧
      KeepsAllBut [] [.index] s t) ∧
    (∃ t, exec (.ldF x) s = .next t ∧ t.i.toNat = 5 * (s.reg x).toNat ∧ KeepsAllBut [] [.index] s t)

/-- LD B stores the hundreds, tens and ones of `V[x]` at `I`, `I + 1`, `I + 2` and changes nothing else; when `I + 2` is
above 4095 it faults with the lowest address out of range (42_index_memory.md R123; 20_memory.md R46, the spec's
decision D5). -/
def Obligations.BcdStoresThreeDigits : Prop :=
  ∀ (s : State) (x : Reg), s.mem.wf = true →
    (s.base + 2 ≤ 4095 → ∃ t h d o, exec (.ldB x) s = .next t ∧
      t.readByte s.base = some h ∧ t.readByte (s.base + 1) = some d ∧ t.readByte (s.base + 2) = some o ∧
      h.toNat = (s.reg x).toNat / 100 ∧ d.toNat = (s.reg x).toNat / 10 % 10 ∧ o.toNat = (s.reg x).toNat % 10 ∧
      KeepsMemoryOutside s.base 3 s t ∧ KeepsAllBut [] [.memory] s t) ∧
    (s.base + 2 > 4095 → exec (.ldB x) s = .fault (.memOutOfBounds (max s.base 4096)))

/-- LD [I], Vx stores `V[0]` .. `V[x]` at `I` .. `I + x` and changes nothing else, `I` included; when `I + x` is above
4095 it faults with the lowest address out of range (42_index_memory.md R124; 20_memory.md R46, the spec's
decision D5). -/
def Obligations.RegisterStoreWritesTheRun : Prop :=
  ∀ (s : State) (x : Reg), s.mem.wf = true →
    (s.base + x.val ≤ 4095 → ∃ t, exec (.stRegs x) s = .next t ∧
      (∀ k : Reg, k ≤ x → t.readByte (s.base + k.val) = some (s.reg k)) ∧
      KeepsMemoryOutside s.base (x.val + 1) s t ∧ KeepsAllBut [] [.memory] s t) ∧
    (s.base + x.val > 4095 → exec (.stRegs x) s = .fault (.memOutOfBounds (max s.base 4096)))

/-- LD Vx, [I] loads `V[0]` .. `V[x]` from `I` .. `I + x`; registers above `x`, `I`, memory and all else are unchanged;
when `I + x` is above 4095 it faults with the lowest address out of range (42_index_memory.md R125; 20_memory.md R46,
the spec's decision D5). -/
def Obligations.RegisterLoadReadsTheRun : Prop :=
  ∀ (s : State) (x : Reg),
    (s.base + x.val ≤ 4095 → ∃ t, exec (.ldRegs x) s = .next t ∧
      (∀ k : Reg, k ≤ x → some (t.reg k) = s.readByte (s.base + k.val)) ∧
      (∀ k : Reg, x < k → t.reg k = s.reg k) ∧ ∀ p, Part.Same p s t) ∧
    (s.base + x.val > 4095 → exec (.ldRegs x) s = .fault (.memOutOfBounds (max s.base 4096)))

/-- What Fx55 stores, Fx65 loads back: from any state with that memory and that `I`, `V[0]` .. `V[x]` get the values
stored (42_index_memory.md R124, R125; 20_memory.md R49). -/
def Obligations.LoadRestoresStoredRegisters : Prop :=
  ∀ (s t t' u : State) (x : Reg), s.mem.wf = true → exec (.stRegs x) s = .next t → t'.mem = t.mem → t'.i = t.i →
    exec (.ldRegs x) t' = .next u → ∀ k : Reg, k ≤ x → u.reg k = s.reg k

/-- Two bytes stored by Fx55 where `pc` stands are the very next opcode fetched, high byte first: the core keeps no copy
of the program (20_memory.md R51, derived there; R43). -/
def Obligations.StoredBytesAreFetchedNext : Prop :=
  ∀ (s t : State) (x k k' : Reg), s.mem.wf = true → exec (.stRegs x) s = .next t → k'.val = k.val + 1 → k' ≤ x →
    t.pc.toNat = s.base + k.val →
    fetch t = .ok (BitVec.ofNat 16 ((s.reg k).toNat * 256 + (s.reg k').toNat), t.setPc (t.pc + 2))

/-- Memories in canonical form that read the same at every address are equal lists (the model's representation of
20_memory.md R40 to R42, log 24). -/
def Obligations.CanonicalMemoryIsUnique : Prop :=
  ∀ m m' : Memory, m.wf = true → m'.wf = true → (∀ a, a < memSize → m.peek a = m'.peek a) → m = m'

/-! Display. -/

/-- CLS clears every pixel and changes nothing else, `VF` neither (43_display.md R135). -/
def Obligations.ClearEmptiesTheDisplay : Prop :=
  ∀ s : State, ∃ t, exec .cls s = .next t ∧ (∀ px py, t.pixel px py = false) ∧ KeepsAllBut [] [.display] s t

/-- A sprite draw XORs the sprite onto the display at the coordinates in `V[x]` and `V[y]` as they were, wrapping at the
edges; `VF` ends 1 when some pixel went from set to unset and else 0; `I`, memory and all else is unchanged. With
`n > 0` and `I + n - 1` above 4095 it faults instead. (43_display.md R136; that the whole run is checked first and that
`n = 0` never faults are the spec's decisions D5 and D20.) -/
def Obligations.DrawXorsTheSprite : Prop :=
  ∀ (s : State) (x y : Reg) (n : Nat), n < 16 →
    (¬(0 < n ∧ s.base + n - 1 > 4095) → ∃ t, exec (.drw x y n) s = .next t ∧
      (∀ px py, t.pixel px py =
        (s.pixel px py ^^ s.spriteHits n (s.reg x).toNat (s.reg y).toNat px py)) ∧
      ((∃ px py, s.spriteHits n (s.reg x).toNat (s.reg y).toNat px py = true ∧ s.pixel px py = true) → t.reg VF = 1) ∧
      ((∀ px py, s.spriteHits n (s.reg x).toNat (s.reg y).toNat px py = true → s.pixel px py = false) → t.reg VF = 0) ∧
      KeepsAllBut [VF] [.display] s t) ∧
    (0 < n ∧ s.base + n - 1 > 4095 → exec (.drw x y n) s = .fault (.memOutOfBounds (max s.base 4096)))

/-- Drawing the same sprite twice at the same coordinates restores the display, and the second draw reports a collision
exactly when the first turned a pixel on (43_display.md R137(a)). The second draw runs in any state with the first
draw's display, memory, `I` and coordinates. -/
def Obligations.DrawingTwiceRestoresTheDisplay : Prop :=
  ∀ (s t t' : State) (x y : Reg) (n : Nat), n < 16 → exec (.drw x y n) s = .next t →
    (∀ px py, t'.pixel px py = t.pixel px py) → (∀ a, t'.readByte a = s.readByte a) → t'.i = s.i →
    t'.reg x = s.reg x → t'.reg y = s.reg y →
    ∃ u, exec (.drw x y n) t' = .next u ∧ (∀ px py, u.pixel px py = s.pixel px py) ∧
      (u.reg VF = 1 ↔ ∃ px py, t.pixel px py = true ∧ s.pixel px py = false) ∧ (u.reg VF = 1 ∨ u.reg VF = 0)

/-! Timers and keys. -/

/-- SKP and SKNP skip by the latch entry that `V[x]` names, and clear no key; a value above 15 faults with no skip
(44_timer_key.md R145, R146, R151; the fault is the spec's decision D8, log 6). -/
def Obligations.KeySkipsReadTheLatch : Prop :=
  ∀ (s : State) (x : Reg),
    (∀ k : Fin 16, (s.reg x).toNat = k.val →
      (∃ t, exec (.skp x) s = .next t ∧ t.pc = (if s.key k = true then s.pc + 2 else s.pc) ∧
        KeepsAllBut [] [.counter] s t) ∧
      (∃ t, exec (.sknp x) s = .next t ∧ t.pc = (if s.key k = false then s.pc + 2 else s.pc) ∧
        KeepsAllBut [] [.counter] s t)) ∧
    ((s.reg x).toNat > 15 → exec (.skp x) s = .fault (.keyIndexOutOfRange (s.reg x)) ∧
      exec (.sknp x) s = .fault (.keyIndexOutOfRange (s.reg x)))

/-- LD Vx, K stores the least pressed key and goes on; with no key pressed it puts `pc` back by 2 and changes nothing
else (44_timer_key.md R148; that the least of several keys is taken is the spec's decision D9, log 7). -/
def Obligations.KeyWaitStoresTheLeastKey : Prop :=
  ∀ (s : State) (x : Reg),
    (∀ k : Fin 16, s.key k = true → (∀ j : Fin 16, j < k → s.key j = false) →
      ∃ t, exec (.ldVxK x) s = .next t ∧ (t.reg x).toNat = k.val ∧ KeepsAllBut [x] [] s t) ∧
    ((∀ k : Fin 16, s.key k = false) →
      ∃ t, exec (.ldVxK x) s = .next t ∧ t.pc = s.pc - 2 ∧ KeepsAllBut [] [.counter] s t)

/-- While no key is pressed, a tick at an Fx0A leaves the whole state unchanged: the wait is a poll
(44_timer_key.md R148). -/
def Obligations.KeyWaitTickLeavesTheStateUnchanged : Prop :=
  ∀ (s : State) (op : Word) (x : Reg), s.OpcodeAtPc op → decodeOp op = .ok (.ldVxK x) →
    (∀ k : Fin 16, s.key k = false) → step s = .next s

/-- The timer moves: `V[x] <- DT`, `DT <- V[x]`, `ST <- V[x]`, nothing else; after the last `sound_should_play()` is
true exactly when the value is not 0 (44_timer_key.md R147, R149, R150). -/
def Obligations.TimerMoves : Prop :=
  ∀ (s : State) (x : Reg),
    (∃ t, exec (.ldVxDt x) s = .next t ∧ t.reg x = s.dt ∧ KeepsAllBut [x] [] s t) ∧
    (∃ t, exec (.ldDtVx x) s = .next t ∧ t.dt = s.reg x ∧ KeepsAllBut [] [.delay] s t) ∧
    (∃ t, exec (.ldStVx x) s = .next t ∧ t.st = s.reg x ∧ (soundShouldPlay t = true ↔ s.reg x ≠ 0) ∧
      KeepsAllBut [] [.sound] s t)

/-! The host's operations. -/

/-- `tick_timers()` lowers each timer that is above 0 by 1, never below 0, answers whether `ST` was 1, and changes
nothing else (60_exceptions.md R170; that the signal is the operation's answer is the spec's decision D14, log 18). -/
def Obligations.TickTimersDecaysByOne : Prop :=
  ∀ (font : Font) (s : State), ∃ t, applyOp font .tickTimers s = ⟨t, .okFlag (decide (s.st.toNat = 1))⟩ ∧
    t.dt.toNat = s.dt.toNat - 1 ∧ t.st.toNat = s.st.toNat - 1 ∧ KeepsAllBut [] [.delay, .sound] s t

/-- `sound_should_play()` returns whether `ST > 0`, changes nothing and never faults; `tick_timers()` reports tone_stop
exactly when the sound should play before the call and not after it (60_exceptions.md R171; that the signal is the
operation's answer is the spec's decision D14, log 18). -/
def Obligations.ToneStopMarksTheEndOfSound : Prop :=
  ∀ (font : Font) (s : State),
    applyOp font .soundShouldPlay s = ⟨s, .okFlag (decide (s.st.toNat > 0))⟩ ∧
    ((applyOp font .tickTimers s).reply = .okFlag true ↔
      (applyOp font .soundShouldPlay s).reply = .okFlag true ∧
      (applyOp font .soundShouldPlay (applyOp font .tickTimers s).state).reply = .okFlag false)

/-- `set_key(index, pressed)` writes that one entry of the latch; with `index > 15` it fails and nothing changes; no
other operation but `reset` writes the latch (60_exceptions.md R172; that a successful call changes nothing else is the
frame rule, 00_scope.md R9, the spec's decision D11, log 12). -/
def Obligations.SetKeyWritesOneEntry : Prop :=
  ∀ (font : Font) (s : State) (index : Nat) (pressed : Bool),
    (∀ h : index < 16, ∃ t, applyOp font (.setKey index pressed) s = ⟨t, .ok⟩ ∧ t.key ⟨index, h⟩ = pressed ∧
      (∀ k : Fin 16, k.val ≠ index → t.key k = s.key k) ∧ KeepsAllBut [] [.keys] s t) ∧
    (index > 15 → applyOp font (.setKey index pressed) s = ⟨s, .fault (.invalidKeyIndex index)⟩) ∧
    (∀ op : HostOp, (∀ k b, op ≠ .setKey k b) → op ≠ .reset → (applyOp font op s).state.keys = s.keys)

/-- `load(bytes)` of at most 3584 bytes writes them from 512 up and nothing else; a longer image is refused whole
(70_reset_and_hazards.md R192; that it may be called at any time is the spec's decision D15, log 14). -/
def Obligations.LoadCopiesTheImage : Prop :=
  ∀ (font : Font) (s : State) (image : List Byte), s.mem.wf = true →
    (image.length ≤ 3584 → ∃ t, applyOp font (.load image) s = ⟨t, .ok⟩ ∧
      (∀ k (h : k < image.length), t.readByte (512 + k) = some image[k]) ∧
      KeepsMemoryOutside 512 image.length s t ∧ KeepsAllBut [] [.memory] s t) ∧
    (image.length > 3584 → applyOp font (.load image) s = ⟨s, .fault (.imageTooLarge image.length)⟩)

/-- After `construct()`, and identically after `reset()` from any state, every piece of state has the value of the reset
table: all zero or clear, `pc` at 512, the font at 0 to 79 and 0 above it (10_state.md R31; 70_reset_and_hazards.md R190,
R191; that the key latch is cleared is the spec's decision D16, log 11). The font is any font (decision D1, log 1);
`State.reset` is what `construct()` makes with the default font. The count of free draws, the model's own, starts at 0 and
goes on through a `reset()` (log 2). -/
def Obligations.ResetRestoresEveryPart : Prop :=
  (∀ font : Font, (construct font).AtReset font ∧ (construct font).draws = 0) ∧
  (∀ (font : Font) (s : State), ∃ t, applyOp font .reset s = ⟨t, .ok⟩ ∧ t.AtReset font ∧ t.draws = s.draws) ∧
  construct defaultFont = State.reset

/-- `get_display()` returns 2048 booleans, element `x + 64 * y` being pixel `(x, y)`, and changes nothing
(60_exceptions.md R173). -/
def Obligations.GetDisplayIsRowMajor : Prop :=
  ∀ (font : Font) (s : State), ∃ pixels, applyOp font .getDisplay s = ⟨s, .okDisplay pixels⟩ ∧ pixels.length = 2048 ∧
    ∀ (px : Fin 64) (py : Fin 32), pixels[px.val + 64 * py.val]? = some (s.pixel px py)

/-- A host-misuse fault leaves the whole state as it was, and only `set_key` and `load` raise one
(60_exceptions.md R160, R162). -/
def Obligations.HostMisuseChangesNothing : Prop :=
  ∀ (font : Font) (op : HostOp) (s : State) (f : Fault), (applyOp font op s).reply = .fault f → op ≠ .tick →
    (applyOp font op s).state = s ∧
    ((∃ index pressed, op = .setKey index pressed ∧ index > 15 ∧ f = .invalidKeyIndex index) ∨
     ∃ image, op = .load image ∧ image.length > 3584 ∧ f = .imageTooLarge image.length)

/-- No host operation but `reset` changes `pc` between ticks (60_exceptions.md R167). -/
def Obligations.OnlyResetMovesPcBetweenTicks : Prop :=
  ∀ (font : Font) (op : HostOp) (s : State), op ≠ .tick → (applyOp font op s).state.pc ≠ s.pc → op = .reset

/-- The host's `tick()` is the step: when the step ends in a next state, `tick()` leaves exactly that state and returns
`Ok` (40_tick_and_control.md R80; 00_scope.md R10). What it leaves and returns at a fault is said by
`FaultingTickIsPrecise`. -/
def Obligations.TickAnswersOkWithTheNextState : Prop :=
  ∀ (font : Font) (s : State), applyOp font .tick s = tick s ∧ ∀ t, step s = .next t → tick s = ⟨t, .ok⟩
end

