-- ==== Sys2Proof/Laws/Decode.lean ====
section
/-! SUPPORT. The fields of packed words, what the decoder answers on a word of each leading nibble, and a word as the sum
of its fields. -/

namespace Sys2Proof

theorem packXYN_toNat {t x y n : Nat} (ht : t < 16) (hx : x < 16) (hy : y < 16) (hn : n < 16) :
    (packXYN t x y n).toNat = t * 4096 + x * 256 + y * 16 + n := by
  simp only [packXYN, BitVec.toNat_ofNat]; omega

theorem packXKK_toNat {t x kk : Nat} (ht : t < 16) (hx : x < 16) (hk : kk < 256) :
    (packXKK t x kk).toNat = t * 4096 + x * 256 + kk := by
  simp only [packXKK, BitVec.toNat_ofNat]; omega

theorem packNNN_toNat {t nnn : Nat} (ht : t < 16) (hn : nnn < 4096) : (packNNN t nnn).toNat = t * 4096 + nnn := by
  simp only [packNNN, BitVec.toNat_ofNat]; omega

/-- Two words with the same four nibbles are one word. -/
theorem word_ext_of_nibbles {v w : Word} (ht : bits 15 12 v = bits 15 12 w) (hx : bits 11 8 v = bits 11 8 w)
    (hy : bits 7 4 v = bits 7 4 w) (hn : bits 3 0 v = bits 3 0 w) : v = w := by
  apply BitVec.eq_of_toNat_eq
  have hv := v.isLt
  have hw := w.isLt
  simp only [bits] at ht hx hy hn
  norm_num at ht hx hy hn
  omega

/-- A word is the sum of its nibbles. -/
theorem toNat_eq_nibbles (w : Word) :
    w.toNat = bits 15 12 w * 4096 + bits 11 8 w * 256 + bits 7 4 w * 16 + bits 3 0 w := by
  have hw := w.isLt
  simp only [bits]
  norm_num
  omega

/-- The low byte is made of the two low nibbles. -/
theorem bits_low_byte (w : Word) : bits 7 0 w = bits 7 4 w * 16 + bits 3 0 w := by
  have hw := w.isLt
  simp only [bits]
  norm_num
  omega

/-- The low twelve bits are made of the three low nibbles. -/
theorem bits_low_twelve (w : Word) : bits 11 0 w = bits 11 8 w * 256 + bits 7 4 w * 16 + bits 3 0 w := by
  have hw := w.isLt
  simp only [bits]
  norm_num
  omega

theorem nibble_lt (w : Word) : bits 15 12 w < 16 ∧ bits 11 8 w < 16 ∧ bits 7 4 w < 16 ∧ bits 3 0 w < 16 :=
  ⟨bits_lt 15 12 w, bits_lt 11 8 w, bits_lt 7 4 w, bits_lt 3 0 w⟩

/-! Masks, nibble by nibble. -/

theorem bits_and (hi lo : Nat) (v w : Word) : bits hi lo (v &&& w) = bits hi lo v &&& bits hi lo w := by
  simp only [bits, BitVec.toNat_and, Nat.and_div_two_pow, Nat.and_mod_two_pow]

theorem nibble_and_15 {b : Nat} (h : b < 16) : b &&& 15 = b := by
  simpa using Nat.and_two_pow_sub_one_of_lt_two_pow (n := 4) h

/-- A row selects a word when each nibble agrees with the pattern under the mask. -/
theorem OpcodeRow.selects_iff (r : OpcodeRow) (op : Word) : r.selects op = true ↔
    bits 15 12 op &&& bits 15 12 r.mask = bits 15 12 r.pattern ∧ bits 11 8 op &&& bits 11 8 r.mask = bits 11 8 r.pattern ∧
    bits 7 4 op &&& bits 7 4 r.mask = bits 7 4 r.pattern ∧ bits 3 0 op &&& bits 3 0 r.mask = bits 3 0 r.pattern := by
  simp only [OpcodeRow.selects, beq_iff_eq, ← bits_and]
  exact ⟨fun h => by simp [h], fun h => word_ext_of_nibbles h.1 h.2.1 h.2.2.1 h.2.2.2⟩

/-! The nibbles of a packed word. -/

theorem packXYN_nibbles {t x y n : Nat} (ht : t < 16) (hx : x < 16) (hy : y < 16) (hn : n < 16) :
    bits 15 12 (packXYN t x y n) = t ∧ bits 11 8 (packXYN t x y n) = x ∧ bits 7 4 (packXYN t x y n) = y ∧
      bits 3 0 (packXYN t x y n) = n := by
  simp only [bits, packXYN_toNat ht hx hy hn]
  norm_num
  omega

theorem packXKK_eq (t x kk : Nat) : packXKK t x kk = packXYN t x (kk / 16) (kk % 16) := by
  rw [packXKK, packXYN, show t * 4096 + x * 256 + kk / 16 * 16 + kk % 16 = t * 4096 + x * 256 + kk by omega]

theorem packNNN_eq (t nnn : Nat) : packNNN t nnn = packXYN t (nnn / 256) (nnn / 16 % 16) (nnn % 16) := by
  rw [packNNN, packXYN,
    show t * 4096 + nnn / 256 * 256 + nnn / 16 % 16 * 16 + nnn % 16 = t * 4096 + nnn by omega]

/-! Fields of packed words. -/

@[simp] theorem fieldX_packXYN {t x y n : Nat} (ht : t < 16) (hx : x < 16) (hy : y < 16) (hn : n < 16) :
    fieldX (packXYN t x y n) = ⟨x, hx⟩ := Fin.ext (packXYN_nibbles ht hx hy hn).2.1

@[simp] theorem fieldY_packXYN {t x y n : Nat} (ht : t < 16) (hx : x < 16) (hy : y < 16) (hn : n < 16) :
    fieldY (packXYN t x y n) = ⟨y, hy⟩ := Fin.ext (packXYN_nibbles ht hx hy hn).2.2.1

@[simp] theorem fieldN_packXYN {t x y n : Nat} (ht : t < 16) (hx : x < 16) (hy : y < 16) (hn : n < 16) :
    fieldN (packXYN t x y n) = n := (packXYN_nibbles ht hx hy hn).2.2.2

/-- Leading nibble, register and low byte of a word packed from them. -/
theorem packXKK_fields {t x kk : Nat} (ht : t < 16) (hx : x < 16) (hk : kk < 256) :
    bits 15 12 (packXKK t x kk) = t ∧ fieldX (packXKK t x kk) = ⟨x, hx⟩ ∧ bits 7 0 (packXKK t x kk) = kk := by
  rw [packXKK_eq]
  obtain ⟨a, b, c, d⟩ := packXYN_nibbles (y := kk / 16) (n := kk % 16) ht hx (by omega) (by omega)
  refine ⟨a, Fin.ext b, ?_⟩
  rw [bits_low_byte, c, d]
  omega

theorem fieldKK_packXKK {t x : Nat} (ht : t < 16) (hx : x < 16) (kk : Byte) : fieldKK (packXKK t x kk.toNat) = kk := by
  rw [fieldKK, (packXKK_fields ht hx kk.isLt).2.2]
  exact BitVec.ofNat_toNat 8 kk |>.trans (BitVec.setWidth_eq kk)

/-- Leading nibble and immediate of a word packed from them. -/
theorem packNNN_fields {t : Nat} (ht : t < 16) (nnn : Imm12) :
    bits 15 12 (packNNN t nnn.toNat) = t ∧ fieldNNN (packNNN t nnn.toNat) = nnn := by
  have := nnn.isLt
  rw [packNNN_eq]
  obtain ⟨a, b, c, d⟩ := packXYN_nibbles (x := nnn.toNat / 256) (y := nnn.toNat / 16 % 16) (n := nnn.toNat % 16) ht
    (by omega) (by omega) (by omega)
  refine ⟨a, ?_⟩
  rw [fieldNNN, bits_low_twelve, b, c, d]
  apply BitVec.eq_of_toNat_eq
  simp only [BitVec.toNat_ofNat]
  omega

/-! A word packed again from its own fields. -/

theorem fieldKK_toNat (op : Word) : (fieldKK op).toNat = bits 7 0 op := by
  have := bits_lt 7 0 op
  simp only [fieldKK, BitVec.toNat_ofNat]
  omega

theorem fieldNNN_toNat (op : Word) : (fieldNNN op).toNat = bits 11 0 op := by
  have := bits_lt 11 0 op
  simp only [fieldNNN, BitVec.toNat_ofNat]
  omega

theorem repack_XYN (op : Word) : packXYN (bits 15 12 op) (fieldX op).val (fieldY op).val (fieldN op) = op := by
  obtain ⟨ht, hx, hy, hn⟩ := nibble_lt op
  apply BitVec.eq_of_toNat_eq
  rw [packXYN_toNat ht (fieldX op).isLt (fieldY op).isLt (n := fieldN op) hn, toNat_eq_nibbles op]
  rfl

theorem repack_XKK (op : Word) : packXKK (bits 15 12 op) (fieldX op).val (bits 7 0 op) = op := by
  obtain ⟨ht, hx, -, -⟩ := nibble_lt op
  apply BitVec.eq_of_toNat_eq
  rw [packXKK_toNat ht (fieldX op).isLt (bits_lt 7 0 op), bits_low_byte, toNat_eq_nibbles op]
  simp only [fieldX]
  omega

theorem repack_NNN (op : Word) : packNNN (bits 15 12 op) (bits 11 0 op) = op := by
  obtain ⟨ht, -, -, -⟩ := nibble_lt op
  apply BitVec.eq_of_toNat_eq
  rw [packNNN_toNat ht (bits_lt 11 0 op), bits_low_twelve, toNat_eq_nibbles op]
  omega

/-- Clearing the field `y`. -/
theorem clear_y (op : Word) : op &&& 0xFF0F = packXYN (bits 15 12 op) (fieldX op).val 0 (fieldN op) := by
  obtain ⟨ht, hx, -, hn⟩ := nibble_lt op
  obtain ⟨a, b, c, d⟩ := packXYN_nibbles (y := 0) ht (fieldX op).isLt (by decide) hn
  apply word_ext_of_nibbles <;> simp only [bits_and]
  · exact (nibble_and_15 ht).trans a.symm
  · exact (nibble_and_15 hx).trans b.symm
  · exact (Nat.and_zero _).trans c.symm
  · exact (nibble_and_15 hn).trans d.symm

end Sys2Proof
end

