-- ==== Sys2Proof/Laws/State.lean ====
section
/-! SUPPORT. One lemma for each field of the state under each named update, and for each accessor under the updates of
what it does not read, so that no later proof unfolds a record update. -/

namespace Sys2Proof.Machine

/-! Fields after `setReg`. -/

@[simp] theorem State.setReg_v (s : State) (x : Reg) (b : Byte) : (s.setReg x b).v = s.v.set x.val b := rfl
@[simp] theorem State.setReg_i (s : State) (x : Reg) (b : Byte) : (s.setReg x b).i = s.i := rfl
@[simp] theorem State.setReg_pc (s : State) (x : Reg) (b : Byte) : (s.setReg x b).pc = s.pc := rfl
@[simp] theorem State.setReg_sp (s : State) (x : Reg) (b : Byte) : (s.setReg x b).sp = s.sp := rfl
@[simp] theorem State.setReg_stack (s : State) (x : Reg) (b : Byte) : (s.setReg x b).stack = s.stack := rfl
@[simp] theorem State.setReg_mem (s : State) (x : Reg) (b : Byte) : (s.setReg x b).mem = s.mem := rfl
@[simp] theorem State.setReg_fb (s : State) (x : Reg) (b : Byte) : (s.setReg x b).fb = s.fb := rfl
@[simp] theorem State.setReg_keys (s : State) (x : Reg) (b : Byte) : (s.setReg x b).keys = s.keys := rfl
@[simp] theorem State.setReg_dt (s : State) (x : Reg) (b : Byte) : (s.setReg x b).dt = s.dt := rfl
@[simp] theorem State.setReg_st (s : State) (x : Reg) (b : Byte) : (s.setReg x b).st = s.st := rfl
@[simp] theorem State.setReg_draws (s : State) (x : Reg) (b : Byte) : (s.setReg x b).draws = s.draws := rfl

/-! Fields after `setFlag`. -/

@[simp] theorem State.setFlag_v (s : State) (b : Byte) : (s.setFlag b).v = s.v.set 15 b := rfl
@[simp] theorem State.setFlag_i (s : State) (b : Byte) : (s.setFlag b).i = s.i := rfl
@[simp] theorem State.setFlag_pc (s : State) (b : Byte) : (s.setFlag b).pc = s.pc := rfl
@[simp] theorem State.setFlag_sp (s : State) (b : Byte) : (s.setFlag b).sp = s.sp := rfl
@[simp] theorem State.setFlag_stack (s : State) (b : Byte) : (s.setFlag b).stack = s.stack := rfl
@[simp] theorem State.setFlag_mem (s : State) (b : Byte) : (s.setFlag b).mem = s.mem := rfl
@[simp] theorem State.setFlag_fb (s : State) (b : Byte) : (s.setFlag b).fb = s.fb := rfl
@[simp] theorem State.setFlag_keys (s : State) (b : Byte) : (s.setFlag b).keys = s.keys := rfl
@[simp] theorem State.setFlag_dt (s : State) (b : Byte) : (s.setFlag b).dt = s.dt := rfl
@[simp] theorem State.setFlag_st (s : State) (b : Byte) : (s.setFlag b).st = s.st := rfl
@[simp] theorem State.setFlag_draws (s : State) (b : Byte) : (s.setFlag b).draws = s.draws := rfl

/-! Fields after `setI`. -/

@[simp] theorem State.setI_v (s : State) (w : Word) : (s.setI w).v = s.v := rfl
@[simp] theorem State.setI_i (s : State) (w : Word) : (s.setI w).i = w := rfl
@[simp] theorem State.setI_pc (s : State) (w : Word) : (s.setI w).pc = s.pc := rfl
@[simp] theorem State.setI_sp (s : State) (w : Word) : (s.setI w).sp = s.sp := rfl
@[simp] theorem State.setI_stack (s : State) (w : Word) : (s.setI w).stack = s.stack := rfl
@[simp] theorem State.setI_mem (s : State) (w : Word) : (s.setI w).mem = s.mem := rfl
@[simp] theorem State.setI_fb (s : State) (w : Word) : (s.setI w).fb = s.fb := rfl
@[simp] theorem State.setI_keys (s : State) (w : Word) : (s.setI w).keys = s.keys := rfl
@[simp] theorem State.setI_dt (s : State) (w : Word) : (s.setI w).dt = s.dt := rfl
@[simp] theorem State.setI_st (s : State) (w : Word) : (s.setI w).st = s.st := rfl
@[simp] theorem State.setI_draws (s : State) (w : Word) : (s.setI w).draws = s.draws := rfl

/-! Fields after `setPc`. -/

@[simp] theorem State.setPc_v (s : State) (w : Word) : (s.setPc w).v = s.v := rfl
@[simp] theorem State.setPc_i (s : State) (w : Word) : (s.setPc w).i = s.i := rfl
@[simp] theorem State.setPc_pc (s : State) (w : Word) : (s.setPc w).pc = w := rfl
@[simp] theorem State.setPc_sp (s : State) (w : Word) : (s.setPc w).sp = s.sp := rfl
@[simp] theorem State.setPc_stack (s : State) (w : Word) : (s.setPc w).stack = s.stack := rfl
@[simp] theorem State.setPc_mem (s : State) (w : Word) : (s.setPc w).mem = s.mem := rfl
@[simp] theorem State.setPc_fb (s : State) (w : Word) : (s.setPc w).fb = s.fb := rfl
@[simp] theorem State.setPc_keys (s : State) (w : Word) : (s.setPc w).keys = s.keys := rfl
@[simp] theorem State.setPc_dt (s : State) (w : Word) : (s.setPc w).dt = s.dt := rfl
@[simp] theorem State.setPc_st (s : State) (w : Word) : (s.setPc w).st = s.st := rfl
@[simp] theorem State.setPc_draws (s : State) (w : Word) : (s.setPc w).draws = s.draws := rfl

/-! Fields after `setDt`. -/

@[simp] theorem State.setDt_v (s : State) (b : Byte) : (s.setDt b).v = s.v := rfl
@[simp] theorem State.setDt_i (s : State) (b : Byte) : (s.setDt b).i = s.i := rfl
@[simp] theorem State.setDt_pc (s : State) (b : Byte) : (s.setDt b).pc = s.pc := rfl
@[simp] theorem State.setDt_sp (s : State) (b : Byte) : (s.setDt b).sp = s.sp := rfl
@[simp] theorem State.setDt_stack (s : State) (b : Byte) : (s.setDt b).stack = s.stack := rfl
@[simp] theorem State.setDt_mem (s : State) (b : Byte) : (s.setDt b).mem = s.mem := rfl
@[simp] theorem State.setDt_fb (s : State) (b : Byte) : (s.setDt b).fb = s.fb := rfl
@[simp] theorem State.setDt_keys (s : State) (b : Byte) : (s.setDt b).keys = s.keys := rfl
@[simp] theorem State.setDt_dt (s : State) (b : Byte) : (s.setDt b).dt = b := rfl
@[simp] theorem State.setDt_st (s : State) (b : Byte) : (s.setDt b).st = s.st := rfl
@[simp] theorem State.setDt_draws (s : State) (b : Byte) : (s.setDt b).draws = s.draws := rfl

/-! Fields after `setSt`. -/

@[simp] theorem State.setSt_v (s : State) (b : Byte) : (s.setSt b).v = s.v := rfl
@[simp] theorem State.setSt_i (s : State) (b : Byte) : (s.setSt b).i = s.i := rfl
@[simp] theorem State.setSt_pc (s : State) (b : Byte) : (s.setSt b).pc = s.pc := rfl
@[simp] theorem State.setSt_sp (s : State) (b : Byte) : (s.setSt b).sp = s.sp := rfl
@[simp] theorem State.setSt_stack (s : State) (b : Byte) : (s.setSt b).stack = s.stack := rfl
@[simp] theorem State.setSt_mem (s : State) (b : Byte) : (s.setSt b).mem = s.mem := rfl
@[simp] theorem State.setSt_fb (s : State) (b : Byte) : (s.setSt b).fb = s.fb := rfl
@[simp] theorem State.setSt_keys (s : State) (b : Byte) : (s.setSt b).keys = s.keys := rfl
@[simp] theorem State.setSt_dt (s : State) (b : Byte) : (s.setSt b).dt = s.dt := rfl
@[simp] theorem State.setSt_st (s : State) (b : Byte) : (s.setSt b).st = b := rfl
@[simp] theorem State.setSt_draws (s : State) (b : Byte) : (s.setSt b).draws = s.draws := rfl

/-! Fields after `nextDraw`. -/

@[simp] theorem State.nextDraw_v (s : State) : (s.nextDraw).v = s.v := rfl
@[simp] theorem State.nextDraw_i (s : State) : (s.nextDraw).i = s.i := rfl
@[simp] theorem State.nextDraw_pc (s : State) : (s.nextDraw).pc = s.pc := rfl
@[simp] theorem State.nextDraw_sp (s : State) : (s.nextDraw).sp = s.sp := rfl
@[simp] theorem State.nextDraw_stack (s : State) : (s.nextDraw).stack = s.stack := rfl
@[simp] theorem State.nextDraw_mem (s : State) : (s.nextDraw).mem = s.mem := rfl
@[simp] theorem State.nextDraw_fb (s : State) : (s.nextDraw).fb = s.fb := rfl
@[simp] theorem State.nextDraw_keys (s : State) : (s.nextDraw).keys = s.keys := rfl
@[simp] theorem State.nextDraw_dt (s : State) : (s.nextDraw).dt = s.dt := rfl
@[simp] theorem State.nextDraw_st (s : State) : (s.nextDraw).st = s.st := rfl
@[simp] theorem State.nextDraw_draws (s : State) : (s.nextDraw).draws = s.draws + 1 := rfl

/-! Fields after `setKeys`. -/

@[simp] theorem State.setKeys_v (s : State) (ks : Vector Bool 16) : (s.setKeys ks).v = s.v := rfl
@[simp] theorem State.setKeys_i (s : State) (ks : Vector Bool 16) : (s.setKeys ks).i = s.i := rfl
@[simp] theorem State.setKeys_pc (s : State) (ks : Vector Bool 16) : (s.setKeys ks).pc = s.pc := rfl
@[simp] theorem State.setKeys_sp (s : State) (ks : Vector Bool 16) : (s.setKeys ks).sp = s.sp := rfl
@[simp] theorem State.setKeys_stack (s : State) (ks : Vector Bool 16) : (s.setKeys ks).stack = s.stack := rfl
@[simp] theorem State.setKeys_mem (s : State) (ks : Vector Bool 16) : (s.setKeys ks).mem = s.mem := rfl
@[simp] theorem State.setKeys_fb (s : State) (ks : Vector Bool 16) : (s.setKeys ks).fb = s.fb := rfl
@[simp] theorem State.setKeys_keys (s : State) (ks : Vector Bool 16) : (s.setKeys ks).keys = ks := rfl
@[simp] theorem State.setKeys_dt (s : State) (ks : Vector Bool 16) : (s.setKeys ks).dt = s.dt := rfl
@[simp] theorem State.setKeys_st (s : State) (ks : Vector Bool 16) : (s.setKeys ks).st = s.st := rfl
@[simp] theorem State.setKeys_draws (s : State) (ks : Vector Bool 16) : (s.setKeys ks).draws = s.draws := rfl

/-! Fields after `setStack`. -/

@[simp] theorem State.setStack_v (s : State) (st : Vector Word 16) (n : Fin 17) : (s.setStack st n).v = s.v := rfl
@[simp] theorem State.setStack_i (s : State) (st : Vector Word 16) (n : Fin 17) : (s.setStack st n).i = s.i := rfl
@[simp] theorem State.setStack_pc (s : State) (st : Vector Word 16) (n : Fin 17) : (s.setStack st n).pc = s.pc := rfl
@[simp] theorem State.setStack_sp (s : State) (st : Vector Word 16) (n : Fin 17) : (s.setStack st n).sp = n := rfl
@[simp] theorem State.setStack_stack (s : State) (st : Vector Word 16) (n : Fin 17) : (s.setStack st n).stack = st := rfl
@[simp] theorem State.setStack_mem (s : State) (st : Vector Word 16) (n : Fin 17) : (s.setStack st n).mem = s.mem := rfl
@[simp] theorem State.setStack_fb (s : State) (st : Vector Word 16) (n : Fin 17) : (s.setStack st n).fb = s.fb := rfl
@[simp] theorem State.setStack_keys (s : State) (st : Vector Word 16) (n : Fin 17) : (s.setStack st n).keys = s.keys := rfl
@[simp] theorem State.setStack_dt (s : State) (st : Vector Word 16) (n : Fin 17) : (s.setStack st n).dt = s.dt := rfl
@[simp] theorem State.setStack_st (s : State) (st : Vector Word 16) (n : Fin 17) : (s.setStack st n).st = s.st := rfl
@[simp] theorem State.setStack_draws (s : State) (st : Vector Word 16) (n : Fin 17) : (s.setStack st n).draws = s.draws := rfl

/-! Fields after `setMem`. -/

@[simp] theorem State.setMem_v (s : State) (m : Memory) : (s.setMem m).v = s.v := rfl
@[simp] theorem State.setMem_i (s : State) (m : Memory) : (s.setMem m).i = s.i := rfl
@[simp] theorem State.setMem_pc (s : State) (m : Memory) : (s.setMem m).pc = s.pc := rfl
@[simp] theorem State.setMem_sp (s : State) (m : Memory) : (s.setMem m).sp = s.sp := rfl
@[simp] theorem State.setMem_stack (s : State) (m : Memory) : (s.setMem m).stack = s.stack := rfl
@[simp] theorem State.setMem_mem (s : State) (m : Memory) : (s.setMem m).mem = m := rfl
@[simp] theorem State.setMem_fb (s : State) (m : Memory) : (s.setMem m).fb = s.fb := rfl
@[simp] theorem State.setMem_keys (s : State) (m : Memory) : (s.setMem m).keys = s.keys := rfl
@[simp] theorem State.setMem_dt (s : State) (m : Memory) : (s.setMem m).dt = s.dt := rfl
@[simp] theorem State.setMem_st (s : State) (m : Memory) : (s.setMem m).st = s.st := rfl
@[simp] theorem State.setMem_draws (s : State) (m : Memory) : (s.setMem m).draws = s.draws := rfl

/-! Fields after `setDisplay`. -/

@[simp] theorem State.setDisplay_v (s : State) (d : Vector Bool 2048) : (s.setDisplay d).v = s.v := rfl
@[simp] theorem State.setDisplay_i (s : State) (d : Vector Bool 2048) : (s.setDisplay d).i = s.i := rfl
@[simp] theorem State.setDisplay_pc (s : State) (d : Vector Bool 2048) : (s.setDisplay d).pc = s.pc := rfl
@[simp] theorem State.setDisplay_sp (s : State) (d : Vector Bool 2048) : (s.setDisplay d).sp = s.sp := rfl
@[simp] theorem State.setDisplay_stack (s : State) (d : Vector Bool 2048) : (s.setDisplay d).stack = s.stack := rfl
@[simp] theorem State.setDisplay_mem (s : State) (d : Vector Bool 2048) : (s.setDisplay d).mem = s.mem := rfl
@[simp] theorem State.setDisplay_fb (s : State) (d : Vector Bool 2048) : (s.setDisplay d).fb = d := rfl
@[simp] theorem State.setDisplay_keys (s : State) (d : Vector Bool 2048) : (s.setDisplay d).keys = s.keys := rfl
@[simp] theorem State.setDisplay_dt (s : State) (d : Vector Bool 2048) : (s.setDisplay d).dt = s.dt := rfl
@[simp] theorem State.setDisplay_st (s : State) (d : Vector Bool 2048) : (s.setDisplay d).st = s.st := rfl
@[simp] theorem State.setDisplay_draws (s : State) (d : Vector Bool 2048) : (s.setDisplay d).draws = s.draws := rfl

/-! Fields after `storeRun`. -/

@[simp] theorem State.storeRun_v (s : State) (a : Nat) (bs : List Byte) : (s.storeRun a bs).v = s.v := rfl
@[simp] theorem State.storeRun_i (s : State) (a : Nat) (bs : List Byte) : (s.storeRun a bs).i = s.i := rfl
@[simp] theorem State.storeRun_pc (s : State) (a : Nat) (bs : List Byte) : (s.storeRun a bs).pc = s.pc := rfl
@[simp] theorem State.storeRun_sp (s : State) (a : Nat) (bs : List Byte) : (s.storeRun a bs).sp = s.sp := rfl
@[simp] theorem State.storeRun_stack (s : State) (a : Nat) (bs : List Byte) : (s.storeRun a bs).stack = s.stack := rfl
@[simp] theorem State.storeRun_mem (s : State) (a : Nat) (bs : List Byte) : (s.storeRun a bs).mem = s.mem.putRun a bs := rfl
@[simp] theorem State.storeRun_fb (s : State) (a : Nat) (bs : List Byte) : (s.storeRun a bs).fb = s.fb := rfl
@[simp] theorem State.storeRun_keys (s : State) (a : Nat) (bs : List Byte) : (s.storeRun a bs).keys = s.keys := rfl
@[simp] theorem State.storeRun_dt (s : State) (a : Nat) (bs : List Byte) : (s.storeRun a bs).dt = s.dt := rfl
@[simp] theorem State.storeRun_st (s : State) (a : Nat) (bs : List Byte) : (s.storeRun a bs).st = s.st := rfl
@[simp] theorem State.storeRun_draws (s : State) (a : Nat) (bs : List Byte) : (s.storeRun a bs).draws = s.draws := rfl

/-! Fields after `skipIf`. -/

@[simp] theorem State.skipIf_v (s : State) (c : Bool) : (s.skipIf c).v = s.v := by cases c <;> rfl
@[simp] theorem State.skipIf_i (s : State) (c : Bool) : (s.skipIf c).i = s.i := by cases c <;> rfl
@[simp] theorem State.skipIf_pc (s : State) (c : Bool) : (s.skipIf c).pc = if c then s.pc + 2 else s.pc := by
  cases c <;> rfl
@[simp] theorem State.skipIf_sp (s : State) (c : Bool) : (s.skipIf c).sp = s.sp := by cases c <;> rfl
@[simp] theorem State.skipIf_stack (s : State) (c : Bool) : (s.skipIf c).stack = s.stack := by cases c <;> rfl
@[simp] theorem State.skipIf_mem (s : State) (c : Bool) : (s.skipIf c).mem = s.mem := by cases c <;> rfl
@[simp] theorem State.skipIf_fb (s : State) (c : Bool) : (s.skipIf c).fb = s.fb := by cases c <;> rfl
@[simp] theorem State.skipIf_keys (s : State) (c : Bool) : (s.skipIf c).keys = s.keys := by cases c <;> rfl
@[simp] theorem State.skipIf_dt (s : State) (c : Bool) : (s.skipIf c).dt = s.dt := by cases c <;> rfl
@[simp] theorem State.skipIf_st (s : State) (c : Bool) : (s.skipIf c).st = s.st := by cases c <;> rfl
@[simp] theorem State.skipIf_draws (s : State) (c : Bool) : (s.skipIf c).draws = s.draws := by cases c <;> rfl

/-! Accessors under updates of what they do not read. -/

@[simp] theorem State.readByte_setReg (s : State) (x : Reg) (b : Byte) (k : Nat) :
    (s.setReg x b).readByte k = s.readByte k := rfl
@[simp] theorem State.loadRun_setReg (s : State) (x : Reg) (b : Byte) (k l : Nat) :
    (s.setReg x b).loadRun k l = s.loadRun k l := rfl
@[simp] theorem State.pixel_setReg (s : State) (x : Reg) (b : Byte) (px : Fin 64) (py : Fin 32) :
    (s.setReg x b).pixel px py = s.pixel px py := rfl
@[simp] theorem State.key_setReg (s : State) (x : Reg) (b : Byte) (k : Fin 16) :
    (s.setReg x b).key k = s.key k := rfl
@[simp] theorem State.leastKey_setReg (s : State) (x : Reg) (b : Byte) :
    (s.setReg x b).leastKey = s.leastKey := rfl
@[simp] theorem State.base_setReg (s : State) (x : Reg) (b : Byte) :
    (s.setReg x b).base = s.base := rfl
@[simp] theorem State.readByte_setFlag (s : State) (b : Byte) (k : Nat) :
    (s.setFlag b).readByte k = s.readByte k := rfl
@[simp] theorem State.loadRun_setFlag (s : State) (b : Byte) (k l : Nat) :
    (s.setFlag b).loadRun k l = s.loadRun k l := rfl
@[simp] theorem State.pixel_setFlag (s : State) (b : Byte) (px : Fin 64) (py : Fin 32) :
    (s.setFlag b).pixel px py = s.pixel px py := rfl
@[simp] theorem State.key_setFlag (s : State) (b : Byte) (k : Fin 16) :
    (s.setFlag b).key k = s.key k := rfl
@[simp] theorem State.leastKey_setFlag (s : State) (b : Byte) :
    (s.setFlag b).leastKey = s.leastKey := rfl
@[simp] theorem State.base_setFlag (s : State) (b : Byte) :
    (s.setFlag b).base = s.base := rfl
@[simp] theorem State.reg_setI (s : State) (w : Word) (z : Reg) :
    (s.setI w).reg z = s.reg z := rfl
@[simp] theorem State.readByte_setI (s : State) (w : Word) (k : Nat) :
    (s.setI w).readByte k = s.readByte k := rfl
@[simp] theorem State.loadRun_setI (s : State) (w : Word) (k l : Nat) :
    (s.setI w).loadRun k l = s.loadRun k l := rfl
@[simp] theorem State.pixel_setI (s : State) (w : Word) (px : Fin 64) (py : Fin 32) :
    (s.setI w).pixel px py = s.pixel px py := rfl
@[simp] theorem State.key_setI (s : State) (w : Word) (k : Fin 16) :
    (s.setI w).key k = s.key k := rfl
@[simp] theorem State.leastKey_setI (s : State) (w : Word) :
    (s.setI w).leastKey = s.leastKey := rfl
@[simp] theorem State.regsTo_setI (s : State) (w : Word) (z : Reg) :
    (s.setI w).regsTo z = s.regsTo z := rfl
@[simp] theorem State.reg_setPc (s : State) (w : Word) (z : Reg) :
    (s.setPc w).reg z = s.reg z := rfl
@[simp] theorem State.readByte_setPc (s : State) (w : Word) (k : Nat) :
    (s.setPc w).readByte k = s.readByte k := rfl
@[simp] theorem State.loadRun_setPc (s : State) (w : Word) (k l : Nat) :
    (s.setPc w).loadRun k l = s.loadRun k l := rfl
@[simp] theorem State.pixel_setPc (s : State) (w : Word) (px : Fin 64) (py : Fin 32) :
    (s.setPc w).pixel px py = s.pixel px py := rfl
@[simp] theorem State.key_setPc (s : State) (w : Word) (k : Fin 16) :
    (s.setPc w).key k = s.key k := rfl
@[simp] theorem State.leastKey_setPc (s : State) (w : Word) :
    (s.setPc w).leastKey = s.leastKey := rfl
@[simp] theorem State.base_setPc (s : State) (w : Word) :
    (s.setPc w).base = s.base := rfl
@[simp] theorem State.regsTo_setPc (s : State) (w : Word) (z : Reg) :
    (s.setPc w).regsTo z = s.regsTo z := rfl
@[simp] theorem State.reg_setDt (s : State) (b : Byte) (z : Reg) :
    (s.setDt b).reg z = s.reg z := rfl
@[simp] theorem State.readByte_setDt (s : State) (b : Byte) (k : Nat) :
    (s.setDt b).readByte k = s.readByte k := rfl
@[simp] theorem State.loadRun_setDt (s : State) (b : Byte) (k l : Nat) :
    (s.setDt b).loadRun k l = s.loadRun k l := rfl
@[simp] theorem State.pixel_setDt (s : State) (b : Byte) (px : Fin 64) (py : Fin 32) :
    (s.setDt b).pixel px py = s.pixel px py := rfl
@[simp] theorem State.key_setDt (s : State) (b : Byte) (k : Fin 16) :
    (s.setDt b).key k = s.key k := rfl
@[simp] theorem State.leastKey_setDt (s : State) (b : Byte) :
    (s.setDt b).leastKey = s.leastKey := rfl
@[simp] theorem State.base_setDt (s : State) (b : Byte) :
    (s.setDt b).base = s.base := rfl
@[simp] theorem State.regsTo_setDt (s : State) (b : Byte) (z : Reg) :
    (s.setDt b).regsTo z = s.regsTo z := rfl
@[simp] theorem State.reg_setSt (s : State) (b : Byte) (z : Reg) :
    (s.setSt b).reg z = s.reg z := rfl
@[simp] theorem State.readByte_setSt (s : State) (b : Byte) (k : Nat) :
    (s.setSt b).readByte k = s.readByte k := rfl
@[simp] theorem State.loadRun_setSt (s : State) (b : Byte) (k l : Nat) :
    (s.setSt b).loadRun k l = s.loadRun k l := rfl
@[simp] theorem State.pixel_setSt (s : State) (b : Byte) (px : Fin 64) (py : Fin 32) :
    (s.setSt b).pixel px py = s.pixel px py := rfl
@[simp] theorem State.key_setSt (s : State) (b : Byte) (k : Fin 16) :
    (s.setSt b).key k = s.key k := rfl
@[simp] theorem State.leastKey_setSt (s : State) (b : Byte) :
    (s.setSt b).leastKey = s.leastKey := rfl
@[simp] theorem State.base_setSt (s : State) (b : Byte) :
    (s.setSt b).base = s.base := rfl
@[simp] theorem State.regsTo_setSt (s : State) (b : Byte) (z : Reg) :
    (s.setSt b).regsTo z = s.regsTo z := rfl
@[simp] theorem State.reg_nextDraw (s : State) (z : Reg) :
    (s.nextDraw).reg z = s.reg z := rfl
@[simp] theorem State.readByte_nextDraw (s : State) (k : Nat) :
    (s.nextDraw).readByte k = s.readByte k := rfl
@[simp] theorem State.loadRun_nextDraw (s : State) (k l : Nat) :
    (s.nextDraw).loadRun k l = s.loadRun k l := rfl
@[simp] theorem State.pixel_nextDraw (s : State) (px : Fin 64) (py : Fin 32) :
    (s.nextDraw).pixel px py = s.pixel px py := rfl
@[simp] theorem State.key_nextDraw (s : State) (k : Fin 16) :
    (s.nextDraw).key k = s.key k := rfl
@[simp] theorem State.leastKey_nextDraw (s : State) :
    (s.nextDraw).leastKey = s.leastKey := rfl
@[simp] theorem State.base_nextDraw (s : State) :
    (s.nextDraw).base = s.base := rfl
@[simp] theorem State.regsTo_nextDraw (s : State) (z : Reg) :
    (s.nextDraw).regsTo z = s.regsTo z := rfl
@[simp] theorem State.reg_setKeys (s : State) (ks : Vector Bool 16) (z : Reg) :
    (s.setKeys ks).reg z = s.reg z := rfl
@[simp] theorem State.readByte_setKeys (s : State) (ks : Vector Bool 16) (k : Nat) :
    (s.setKeys ks).readByte k = s.readByte k := rfl
@[simp] theorem State.loadRun_setKeys (s : State) (ks : Vector Bool 16) (k l : Nat) :
    (s.setKeys ks).loadRun k l = s.loadRun k l := rfl
@[simp] theorem State.pixel_setKeys (s : State) (ks : Vector Bool 16) (px : Fin 64) (py : Fin 32) :
    (s.setKeys ks).pixel px py = s.pixel px py := rfl
@[simp] theorem State.base_setKeys (s : State) (ks : Vector Bool 16) :
    (s.setKeys ks).base = s.base := rfl
@[simp] theorem State.regsTo_setKeys (s : State) (ks : Vector Bool 16) (z : Reg) :
    (s.setKeys ks).regsTo z = s.regsTo z := rfl
@[simp] theorem State.reg_setStack (s : State) (st : Vector Word 16) (n : Fin 17) (z : Reg) :
    (s.setStack st n).reg z = s.reg z := rfl
@[simp] theorem State.readByte_setStack (s : State) (st : Vector Word 16) (n : Fin 17) (k : Nat) :
    (s.setStack st n).readByte k = s.readByte k := rfl
@[simp] theorem State.loadRun_setStack (s : State) (st : Vector Word 16) (n : Fin 17) (k l : Nat) :
    (s.setStack st n).loadRun k l = s.loadRun k l := rfl
@[simp] theorem State.pixel_setStack (s : State) (st : Vector Word 16) (n : Fin 17) (px : Fin 64) (py : Fin 32) :
    (s.setStack st n).pixel px py = s.pixel px py := rfl
@[simp] theorem State.key_setStack (s : State) (st : Vector Word 16) (n : Fin 17) (k : Fin 16) :
    (s.setStack st n).key k = s.key k := rfl
@[simp] theorem State.leastKey_setStack (s : State) (st : Vector Word 16) (n : Fin 17) :
    (s.setStack st n).leastKey = s.leastKey := rfl
@[simp] theorem State.base_setStack (s : State) (st : Vector Word 16) (n : Fin 17) :
    (s.setStack st n).base = s.base := rfl
@[simp] theorem State.regsTo_setStack (s : State) (st : Vector Word 16) (n : Fin 17) (z : Reg) :
    (s.setStack st n).regsTo z = s.regsTo z := rfl
@[simp] theorem State.reg_setMem (s : State) (m : Memory) (z : Reg) :
    (s.setMem m).reg z = s.reg z := rfl
@[simp] theorem State.pixel_setMem (s : State) (m : Memory) (px : Fin 64) (py : Fin 32) :
    (s.setMem m).pixel px py = s.pixel px py := rfl
@[simp] theorem State.key_setMem (s : State) (m : Memory) (k : Fin 16) :
    (s.setMem m).key k = s.key k := rfl
@[simp] theorem State.leastKey_setMem (s : State) (m : Memory) :
    (s.setMem m).leastKey = s.leastKey := rfl
@[simp] theorem State.base_setMem (s : State) (m : Memory) :
    (s.setMem m).base = s.base := rfl
@[simp] theorem State.regsTo_setMem (s : State) (m : Memory) (z : Reg) :
    (s.setMem m).regsTo z = s.regsTo z := rfl
@[simp] theorem State.reg_setDisplay (s : State) (d : Vector Bool 2048) (z : Reg) :
    (s.setDisplay d).reg z = s.reg z := rfl
@[simp] theorem State.readByte_setDisplay (s : State) (d : Vector Bool 2048) (k : Nat) :
    (s.setDisplay d).readByte k = s.readByte k := rfl
@[simp] theorem State.loadRun_setDisplay (s : State) (d : Vector Bool 2048) (k l : Nat) :
    (s.setDisplay d).loadRun k l = s.loadRun k l := rfl
@[simp] theorem State.key_setDisplay (s : State) (d : Vector Bool 2048) (k : Fin 16) :
    (s.setDisplay d).key k = s.key k := rfl
@[simp] theorem State.leastKey_setDisplay (s : State) (d : Vector Bool 2048) :
    (s.setDisplay d).leastKey = s.leastKey := rfl
@[simp] theorem State.base_setDisplay (s : State) (d : Vector Bool 2048) :
    (s.setDisplay d).base = s.base := rfl
@[simp] theorem State.regsTo_setDisplay (s : State) (d : Vector Bool 2048) (z : Reg) :
    (s.setDisplay d).regsTo z = s.regsTo z := rfl
@[simp] theorem State.reg_storeRun (s : State) (a : Nat) (bs : List Byte) (z : Reg) :
    (s.storeRun a bs).reg z = s.reg z := rfl
@[simp] theorem State.pixel_storeRun (s : State) (a : Nat) (bs : List Byte) (px : Fin 64) (py : Fin 32) :
    (s.storeRun a bs).pixel px py = s.pixel px py := rfl
@[simp] theorem State.key_storeRun (s : State) (a : Nat) (bs : List Byte) (k : Fin 16) :
    (s.storeRun a bs).key k = s.key k := rfl
@[simp] theorem State.leastKey_storeRun (s : State) (a : Nat) (bs : List Byte) :
    (s.storeRun a bs).leastKey = s.leastKey := rfl
@[simp] theorem State.base_storeRun (s : State) (a : Nat) (bs : List Byte) :
    (s.storeRun a bs).base = s.base := rfl
@[simp] theorem State.regsTo_storeRun (s : State) (a : Nat) (bs : List Byte) (z : Reg) :
    (s.storeRun a bs).regsTo z = s.regsTo z := rfl
@[simp] theorem State.reg_skipIf (s : State) (c : Bool) (z : Reg) :
    (s.skipIf c).reg z = s.reg z := by cases c <;> rfl
@[simp] theorem State.readByte_skipIf (s : State) (c : Bool) (k : Nat) :
    (s.skipIf c).readByte k = s.readByte k := by cases c <;> rfl
@[simp] theorem State.loadRun_skipIf (s : State) (c : Bool) (k l : Nat) :
    (s.skipIf c).loadRun k l = s.loadRun k l := by cases c <;> rfl
@[simp] theorem State.pixel_skipIf (s : State) (c : Bool) (px : Fin 64) (py : Fin 32) :
    (s.skipIf c).pixel px py = s.pixel px py := by cases c <;> rfl
@[simp] theorem State.key_skipIf (s : State) (c : Bool) (k : Fin 16) :
    (s.skipIf c).key k = s.key k := by cases c <;> rfl
@[simp] theorem State.leastKey_skipIf (s : State) (c : Bool) :
    (s.skipIf c).leastKey = s.leastKey := by cases c <;> rfl
@[simp] theorem State.base_skipIf (s : State) (c : Bool) :
    (s.skipIf c).base = s.base := by cases c <;> rfl
@[simp] theorem State.regsTo_skipIf (s : State) (c : Bool) (z : Reg) :
    (s.skipIf c).regsTo z = s.regsTo z := by cases c <;> rfl

/-! Registers after a register write. -/

@[simp] theorem State.reg_setReg_same (s : State) (x : Reg) (b : Byte) : (s.setReg x b).reg x = b := by
  simp [State.reg]

theorem State.reg_setReg (s : State) (x z : Reg) (b : Byte) :
    (s.setReg x b).reg z = if z = x then b else s.reg z := by
  by_cases h : z = x
  · simp [h]
  · have : x.val ≠ z.val := fun e => h (Fin.ext e.symm)
    simp [State.reg, h, Vector.getElem_set_ne _ _ this]

theorem State.reg_setReg_ne (s : State) {x z : Reg} (h : z ≠ x) (b : Byte) : (s.setReg x b).reg z = s.reg z := by
  simp [State.reg_setReg, h]

@[simp] theorem State.reg_setFlag_same (s : State) (b : Byte) : (s.setFlag b).reg VF = b :=
  State.reg_setReg_same s VF b

theorem State.reg_setFlag (s : State) (z : Reg) (b : Byte) : (s.setFlag b).reg z = if z = VF then b else s.reg z :=
  State.reg_setReg s VF z b

theorem State.reg_setFlag_ne (s : State) {z : Reg} (h : z ≠ VF) (b : Byte) : (s.setFlag b).reg z = s.reg z :=
  State.reg_setReg_ne s h b

end Sys2Proof.Machine
end

