-- ==== Sys2Proof/Laws/Memory.lean ====
section
/-! SUPPORT. What one write does to memory, and that every memory operation keeps the canonical form. -/

namespace Sys2Proof.Machine

/-! Reading after writing. -/

theorem Memory.peek_cons (m : Memory) (a a' : Nat) (b : Byte) (h : a' ≠ a) : (Memory.cons a b m).peek a' = m.peek a' := by
  unfold Memory.cons
  split
  · rfl
  · simp [Memory.peek, h]

/-- A write leaves every other address alone, whatever the form of the list. -/
theorem Memory.peek_put_ne (m : Memory) {a a' : Nat} (b : Byte) (h : a' ≠ a) : (m.put a b).peek a' = m.peek a' := by
  induction m with
  | nil => exact Memory.peek_cons [] a a' b h
  | cons c m ih =>
    obtain ⟨k, c⟩ := c
    simp only [Memory.put]
    split
    · exact Memory.peek_cons _ a a' b h
    · split
      · next e => subst e; rw [Memory.peek_cons _ _ _ _ h]; simp [Memory.peek, h]
      · simp [Memory.peek, ih]

/-- Below the lowest address that may be listed, memory reads as at reset. -/
theorem Memory.peek_below (m : Memory) {low a : Nat} (hw : m.wfFrom low = true) (h : a < low) : m.peek a = resetByte a := by
  induction m generalizing low with
  | nil => rfl
  | cons c m ih =>
    obtain ⟨k, c⟩ := c
    simp only [Memory.wfFrom, Bool.and_eq_true, decide_eq_true_eq] at hw
    have hne : a ≠ k := by omega
    simp only [Memory.peek, hne, if_false]
    exact ih hw.2 (by omega)

theorem Memory.peek_cons_same (m : Memory) {low a : Nat} (b : Byte) (hw : m.wfFrom low = true) (h : a < low) :
    (Memory.cons a b m).peek a = b := by
  unfold Memory.cons
  split
  · next e => rw [e]; exact Memory.peek_below m hw h
  · simp [Memory.peek]

theorem Memory.wfFrom_mono (m : Memory) {low low' : Nat} (hw : m.wfFrom low = true) (h : low' ≤ low) :
    m.wfFrom low' = true := by
  cases m with
  | nil => rfl
  | cons c m =>
    obtain ⟨k, c⟩ := c
    simp only [Memory.wfFrom, Bool.and_eq_true, decide_eq_true_eq] at hw ⊢
    exact ⟨⟨⟨by omega, hw.1.1.2⟩, hw.1.2⟩, hw.2⟩

theorem Memory.peek_put_same_from (m : Memory) {low : Nat} (a : Nat) (b : Byte) (hw : m.wfFrom low = true) :
    (m.put a b).peek a = b := by
  induction m generalizing low with
  | nil => exact Memory.peek_cons_same [] (low := a + 1) b rfl (by omega)
  | cons c m ih =>
    obtain ⟨k, c⟩ := c
    have hw' := hw
    simp only [Memory.wfFrom, Bool.and_eq_true, decide_eq_true_eq] at hw'
    simp only [Memory.put]
    split
    · next h =>
      refine Memory.peek_cons_same _ (low := k) b ?_ h
      simp only [Memory.wfFrom, Bool.and_eq_true, decide_eq_true_eq]
      exact ⟨⟨⟨le_refl k, hw'.1.1.2⟩, hw'.1.2⟩, hw'.2⟩
    · split
      · next e => subst e; exact Memory.peek_cons_same m b hw'.2 (by omega)
      · next h1 h2 => simp only [Memory.peek, h2, if_false]; exact ih hw'.2

/-- A read after a write to the same address gives the byte written. -/
theorem Memory.peek_put_same (m : Memory) (a : Nat) (b : Byte) (hw : m.wf = true) : (m.put a b).peek a = b :=
  Memory.peek_put_same_from m a b hw

/-! The canonical form. -/

theorem Memory.wfFrom_cons (m : Memory) {low a : Nat} (b : Byte) (hw : m.wfFrom (a + 1) = true) (hl : low ≤ a)
    (ha : a < memSize) : (Memory.cons a b m).wfFrom low = true := by
  unfold Memory.cons
  split
  · exact Memory.wfFrom_mono m hw (by omega)
  · next h => simp [Memory.wfFrom, hl, ha, h, hw]

theorem Memory.wfFrom_put (m : Memory) {low : Nat} (a : Nat) (b : Byte) (hw : m.wfFrom low = true) (hl : low ≤ a)
    (ha : a < memSize) : (m.put a b).wfFrom low = true := by
  induction m generalizing low with
  | nil => exact Memory.wfFrom_cons [] b rfl hl ha
  | cons c m ih =>
    obtain ⟨k, c⟩ := c
    simp only [Memory.wfFrom, Bool.and_eq_true, decide_eq_true_eq] at hw
    simp only [Memory.put]
    split
    · next h =>
      refine Memory.wfFrom_cons _ b ?_ hl ha
      simp only [Memory.wfFrom, Bool.and_eq_true, decide_eq_true_eq]
      exact ⟨⟨⟨by omega, hw.1.1.2⟩, hw.1.2⟩, hw.2⟩
    · split
      · next e => subst e; exact Memory.wfFrom_cons m b hw.2 hl ha
      · next h1 h2 =>
        simp only [Memory.wfFrom, Bool.and_eq_true, decide_eq_true_eq]
        exact ⟨⟨⟨hw.1.1.1, hw.1.1.2⟩, hw.1.2⟩, ih hw.2 (by omega)⟩

/-- A write to an address that exists keeps the canonical form. -/
theorem Memory.wf_put (m : Memory) (a : Nat) (b : Byte) (hw : m.wf = true) (ha : a < memSize) : (m.put a b).wf = true :=
  Memory.wfFrom_put m a b hw (by omega) ha

/-! Runs of bytes. -/

/-- A run of writes in memory keeps the canonical form. -/
theorem Memory.wf_putRun (m : Memory) (a : Nat) (bs : List Byte) (hw : m.wf = true) (ha : a + bs.length ≤ memSize) :
    (m.putRun a bs).wf = true := by
  induction bs generalizing m a with
  | nil => exact hw
  | cons b bs ih =>
    simp only [List.length_cons] at ha
    exact ih _ _ (Memory.wf_put m a b hw (by omega)) (by omega)

/-- A run of writes leaves every address outside it alone. -/
theorem Memory.peek_putRun_outside (m : Memory) (a : Nat) (bs : List Byte) (k : Nat)
    (hk : ¬(a ≤ k ∧ k < a + bs.length)) : (m.putRun a bs).peek k = m.peek k := by
  induction bs generalizing m a with
  | nil => rfl
  | cons b bs ih =>
    simp only [List.length_cons] at hk
    simp only [Memory.putRun]
    rw [ih _ _ (by omega), Memory.peek_put_ne _ _ (by omega)]

/-- After a run of writes in memory, its addresses hold its bytes. -/
theorem Memory.peek_putRun_inside (m : Memory) (a : Nat) (bs : List Byte) (hw : m.wf = true)
    (ha : a + bs.length ≤ memSize) (k : Nat) (hk : k < bs.length) : (m.putRun a bs).peek (a + k) = bs[k] := by
  induction bs generalizing m a k with
  | nil => simp at hk
  | cons b bs ih =>
    simp only [List.length_cons] at ha hk
    simp only [Memory.putRun]
    cases k with
    | zero =>
      rw [Memory.peek_putRun_outside _ _ _ _ (by omega)]
      exact Memory.peek_put_same m a b hw
    | succ k =>
      have := ih (m.put a b) (a + 1) (Memory.wf_put m a b hw (by omega)) (by omega) k (by omega)
      rw [show a + (k + 1) = a + 1 + k by omega, this, List.getElem_cons_succ]

/-! The same for the state. -/

theorem State.readByte_of_lt (s : State) {a : Nat} (h : a < memSize) : s.readByte a = some (s.mem.peek a) := by
  simp [State.readByte, h]

theorem State.readByte_of_ge (s : State) {a : Nat} (h : memSize ≤ a) : s.readByte a = none := by
  simp [State.readByte, Nat.not_lt.mpr h]

theorem State.readByte_storeRun_outside (s : State) (a : Nat) (bs : List Byte) (k : Nat)
    (hk : ¬(a ≤ k ∧ k < a + bs.length)) : (s.storeRun a bs).readByte k = s.readByte k := by
  simp [State.readByte, Memory.peek_putRun_outside _ _ _ _ hk]

theorem State.readByte_storeRun_inside (s : State) (a : Nat) (bs : List Byte) (hw : s.mem.wf = true)
    (ha : a + bs.length ≤ memSize) (k : Nat) (hk : k < bs.length) :
    (s.storeRun a bs).readByte (a + k) = some bs[k] := by
  rw [State.readByte_of_lt _ (by omega)]
  simp [Memory.peek_putRun_inside _ _ _ hw ha k hk]

theorem State.reset_mem_wf : State.reset.mem.wf = true := rfl

end Sys2Proof.Machine
end

