-- ==== Sys2Proof/Laws/Ops.lean ====
section
/-! SUPPORT. What each shared operation can do, said once: the guarded operations (push, pop, run guard, key index), the
block operations, fetch, execute and the step. -/

namespace Sys2Proof.Machine

@[simp] theorem raise_eq (f : Fault) : raise f = .fault f := rfl

@[simp] theorem raise_ne_next (f : Fault) (t : State) : raise f ≠ .next t := by simp [raise]

/-! The call stack. -/

theorem State.push_of_lt {s : State} (h : s.sp.val < 16) (w : Word) (k : State → Result) :
    s.push w k = k (s.setStack (s.stack.set s.sp.val w) ⟨s.sp.val + 1, by omega⟩) := by
  simp [State.push, h]

theorem State.push_of_full {s : State} (h : s.sp = 16) (w : Word) (k : State → Result) :
    s.push w k = .fault .stackOverflow := by
  simp [State.push, h]

theorem State.pop_of_pos {s : State} (h : 0 < s.sp.val) (k : Word → State → Result) :
    s.pop k = k (s.stack[s.sp.val - 1]'(by omega)) (s.setStack s.stack ⟨s.sp.val - 1, by omega⟩) := by
  simp [State.pop, h]

theorem State.pop_of_empty {s : State} (h : s.sp = 0) (k : Word → State → Result) :
    s.pop k = .fault .stackUnderflow := by
  simp [State.pop, h]

/-- A push goes on, with a free slot, or overflows. -/
theorem State.push_cases (s : State) (w : Word) (k : State → Result) :
    (∃ h : s.sp.val < 16, s.push w k = k (s.setStack (s.stack.set s.sp.val w) ⟨s.sp.val + 1, by omega⟩)) ∨
    (s.sp = 16 ∧ s.push w k = .fault .stackOverflow) := by
  by_cases h : s.sp.val < 16
  · exact .inl ⟨h, State.push_of_lt h w k⟩
  · have : s.sp = 16 := Fin.ext (by have := s.sp.isLt; show s.sp.val = 16; omega)
    exact .inr ⟨this, State.push_of_full this w k⟩

/-- A pop goes on, with a live slot, or underflows. -/
theorem State.pop_cases (s : State) (k : Word → State → Result) :
    (∃ h : 0 < s.sp.val,
      s.pop k = k (s.stack[s.sp.val - 1]'(by omega)) (s.setStack s.stack ⟨s.sp.val - 1, by omega⟩)) ∨
    (s.sp = 0 ∧ s.pop k = .fault .stackUnderflow) := by
  by_cases h : 0 < s.sp.val
  · exact .inl ⟨h, State.pop_of_pos h k⟩
  · have : s.sp = 0 := Fin.ext (by show s.sp.val = 0; omega)
    exact .inr ⟨this, State.pop_of_empty this k⟩

/-! The run guard and the key index. -/

theorem guardRun_ok {base len : Nat} (h : ¬(0 < len ∧ base + len - 1 > 4095)) (k : Result) : guardRun base len k = k := by
  simp only [guardRun, h, if_false]

theorem guardRun_fault {base len : Nat} (h : 0 < len ∧ base + len - 1 > 4095) (k : Result) :
    guardRun base len k = .fault (.memOutOfBounds (max base 4096)) := by
  simp only [guardRun, h, and_self, if_true, raise]

/-- A guarded run answers a next state only when the run lies in memory. -/
theorem guardRun_next {base len : Nat} {k : Result} {t : State} (h : guardRun base len k = .next t) :
    (len = 0 ∨ base + len ≤ memSize) ∧ k = .next t := by
  by_cases hg : 0 < len ∧ base + len - 1 > 4095
  · rw [guardRun_fault hg] at h; cases h
  · rw [guardRun_ok hg] at h
    exact ⟨by simp only [memSize]; omega, h⟩

theorem State.withKey_of_lt {s : State} {x : Reg} (h : (s.reg x).toNat < 16) (k : Bool → Result) :
    s.withKey x k = k (s.key ⟨(s.reg x).toNat, h⟩) := by
  simp [State.withKey, h]

theorem State.withKey_of_gt {s : State} {x : Reg} (h : (s.reg x).toNat > 15) (k : Bool → Result) :
    s.withKey x k = .fault (.keyIndexOutOfRange (s.reg x)) := by
  simp [State.withKey, show ¬(s.reg x).toNat < 16 by omega]

/-- A key lookup goes on with the latch entry, or the register names no key. -/
theorem State.withKey_cases (s : State) (x : Reg) (k : Bool → Result) :
    (∃ h : (s.reg x).toNat < 16, s.withKey x k = k (s.key ⟨(s.reg x).toNat, h⟩)) ∨
    ((s.reg x).toNat > 15 ∧ s.withKey x k = .fault (.keyIndexOutOfRange (s.reg x))) := by
  by_cases h : (s.reg x).toNat < 16
  · exact .inl ⟨h, State.withKey_of_lt h k⟩
  · exact .inr ⟨by omega, State.withKey_of_gt (by omega) k⟩

/-! The least pressed key. -/

theorem State.leastKey_eq_some {s : State} {k : Nat} :
    s.leastKey = some k ↔ ∃ h : k < 16, s.key ⟨k, h⟩ = true ∧ ∀ j : Fin 16, j.val < k → s.key j = false := by
  simp only [State.leastKey, List.findIdx?_eq_some_iff_getElem, State.key, id_eq, Vector.length_toList]
  constructor
  · rintro ⟨h, hk, hj⟩
    exact ⟨h, by simpa using hk, fun j hlt => by simpa using hj j.val hlt⟩
  · rintro ⟨h, hk, hj⟩
    exact ⟨h, by simpa using hk, fun j hlt => by simpa using hj ⟨j, by omega⟩ hlt⟩

theorem State.leastKey_eq_none {s : State} : s.leastKey = none ↔ ∀ k : Fin 16, s.key k = false := by
  simp only [State.leastKey, List.findIdx?_eq_none_iff, State.key, id_eq]
  constructor
  · intro h k
    exact h _ (by simp)
  · intro h b hb
    obtain ⟨k, hk, rfl⟩ := List.mem_iff_getElem.mp hb
    simp only [Vector.length_toList] at hk
    simpa using h ⟨k, hk⟩

/-! Block operations. -/

@[simp] theorem State.loadRun_length (s : State) (base len : Nat) : (s.loadRun base len).length = len := by
  simp [State.loadRun]

theorem State.loadRun_getElem (s : State) (base len k : Nat) (h : k < len) :
    (s.loadRun base len)[k]'(by simpa using h) = s.mem.peek (base + k) := by
  simp [State.loadRun]

@[simp] theorem State.regsTo_length (s : State) (x : Reg) : (s.regsTo x).length = x.val + 1 := by
  have := x.isLt
  simp only [State.regsTo, List.length_take, Vector.length_toList]
  omega

theorem State.regsTo_getElem (s : State) (x k : Reg) (h : k ≤ x) :
    (s.regsTo x)[k.val]'(by have : k.val ≤ x.val := h; simp; omega) = s.reg k := by
  simp [State.regsTo, State.reg]

/-- Loading bytes into registers from `k` up writes those registers and no other. -/
theorem State.reg_setRegsFrom (s : State) (k : Nat) (bs : List Byte) (z : Reg) :
    (s.setRegsFrom k bs).reg z = if h : k ≤ z.val ∧ z.val < k + bs.length then bs[z.val - k]'(by omega) else s.reg z := by
  induction bs generalizing s k with
  | nil => simp [State.setRegsFrom]
  | cons b bs ih =>
    have hz := z.isLt
    simp only [State.setRegsFrom, List.length_cons]
    by_cases hk : k < 16
    · simp only [hk, dite_true, ih, State.reg_setReg]
      by_cases e : z = ⟨k, hk⟩
      · subst e
        simp
      · have hne : z.val ≠ k := fun h => e (Fin.ext h)
        by_cases hin : k + 1 ≤ z.val ∧ z.val < k + 1 + bs.length
        · have h2 : k ≤ z.val ∧ z.val < k + (bs.length + 1) := by omega
          simp only [hin, h2, and_self, dite_true]
          rw [List.getElem_cons, dif_neg (by omega)]
          congr 1
        · have h2 : ¬(k ≤ z.val ∧ z.val < k + (bs.length + 1)) := by omega
          simp only [dif_neg hin, dif_neg h2, if_neg e]
    · have h2 : ¬(k ≤ z.val ∧ z.val < k + (bs.length + 1)) := by omega
      simp only [hk, dite_false, dif_neg h2]

/-- Loading bytes into registers changes nothing but the registers. -/
theorem State.setRegsFrom_eq (s : State) (k : Nat) (bs : List Byte) :
    s.setRegsFrom k bs = { s with v := (s.setRegsFrom k bs).v } := by
  induction bs generalizing s k with
  | nil => rfl
  | cons b bs ih =>
    simp only [State.setRegsFrom]
    split
    · rw [ih]; rfl
    · rfl

/-! Fetch, execute, step. -/

theorem fetch_ok {s : State} (h : s.pc.toNat + 1 ≤ 4095) :
    fetch s = .ok (bigEndian (s.mem.peek s.pc.toNat) (s.mem.peek (s.pc.toNat + 1)), s.setPc (s.pc + 2)) := by
  simp only [fetch, show ¬(s.pc.toNat + 1 > 4095) by omega, if_false]

theorem fetch_fault {s : State} (h : s.pc.toNat + 1 > 4095) : fetch s = .error (.fetchOutOfBounds s.pc) := by
  simp only [fetch, h, if_true]

theorem execute_ok {op : Word} {i : Instr} (h : decodeOp op = .ok i) (s : State) : execute op s = exec i s := by
  simp only [execute, h]

theorem execute_error {op : Word} {r : Reject} (h : decodeOp op = .error r) (s : State) :
    execute op s = .fault (.unsupportedOpcode op) := by
  simp only [execute, h, raise]

/-- A step with the fetch in memory executes the fetched word with `pc` advanced. -/
theorem step_of_fetch {s : State} (h : s.pc.toNat + 1 ≤ 4095) :
    step s = execute (bigEndian (s.mem.peek s.pc.toNat) (s.mem.peek (s.pc.toNat + 1))) (s.setPc (s.pc + 2)) := by
  simp only [step, fetch_ok h]

theorem step_of_fetch_fault {s : State} (h : s.pc.toNat + 1 > 4095) : step s = .fault (.fetchOutOfBounds s.pc) := by
  simp only [step, fetch_fault h, raise]

/-- A step that answers a next state ran one decoded instruction on the state after fetch. -/
theorem step_next {s t : State} (h : step s = .next t) :
    s.pc.toNat + 1 ≤ 4095 ∧
    ∃ i, decodeOp (bigEndian (s.mem.peek s.pc.toNat) (s.mem.peek (s.pc.toNat + 1))) = .ok i ∧
      exec i (s.setPc (s.pc + 2)) = .next t := by
  by_cases hpc : s.pc.toNat + 1 ≤ 4095
  · rw [step_of_fetch hpc] at h
    refine ⟨hpc, ?_⟩
    cases hd : decodeOp (bigEndian (s.mem.peek s.pc.toNat) (s.mem.peek (s.pc.toNat + 1))) with
    | ok i => exact ⟨i, rfl, by rw [execute_ok hd] at h; exact h⟩
    | error r => rw [execute_error hd] at h; cases h
  · rw [step_of_fetch_fault (by omega)] at h; cases h

end Sys2Proof.Machine
end

