-- ==== Sys2Proof/Laws/Display.lean ====
section
/-! SUPPORT. What a sprite draw does to a canvas, said once: every pixel is XORed with the sprite's bit for it, and a
collision is a 1 bit over a set pixel (43_display.md R136). -/

namespace Sys2Proof.Machine

theorem pixelIndex_eq_iff (x y x' y' : Nat) :
    pixelIndex x y = pixelIndex x' y' ↔ x % 64 = x' % 64 ∧ y % 32 = y' % 32 := by
  simp only [pixelIndex, Fin.mk.injEq]
  omega

/-- Whether a sprite row drawn at `(x, y)` has a 1 bit on the pixel with index `i`. -/
def rowHits (row : Byte) (x y : Nat) (i : Fin 2048) (cols : List Nat) : Bool :=
  cols.any fun col => spriteBit row col && decide (pixelIndex (x + col) y = i)

/-- Whether a sprite row drawn at `(x, y)` on a canvas has a 1 bit on a set pixel. -/
def rowCollides (row : Byte) (x y : Nat) (fb : Vector Bool 2048) (cols : List Nat) : Bool :=
  cols.any fun col => spriteBit row col && fb[(pixelIndex (x + col) y).val]

theorem rowHits_eq_true {row : Byte} {x y : Nat} {i : Fin 2048} {cols : List Nat} :
    rowHits row x y i cols = true ↔ ∃ col ∈ cols, spriteBit row col = true ∧ pixelIndex (x + col) y = i := by
  simp [rowHits]

theorem Canvas.toggle_fb (c : Canvas) (x y : Nat) (i : Fin 2048) :
    (c.toggle x y).fb[i.val] = (c.fb[i.val] ^^ decide (pixelIndex x y = i)) := by
  by_cases h : pixelIndex x y = i
  · subst h; simp [Canvas.toggle]
  · have : (pixelIndex x y).val ≠ i.val := fun e => h (Fin.ext e)
    simp [Canvas.toggle, h, Vector.getElem_set_ne _ _ this]

/-- Toggling along columns whose pixels are all different. -/
theorem Canvas.toggles_spec (row : Byte) (x y : Nat) (cols : List Nat) (c : Canvas)
    (hd : cols.Pairwise fun a b => pixelIndex (x + a) y ≠ pixelIndex (x + b) y) :
    (∀ i : Fin 2048, (cols.foldl (fun c col => if spriteBit row col then c.toggle (x + col) y else c) c).fb[i.val] =
      (c.fb[i.val] ^^ rowHits row x y i cols)) ∧
    (cols.foldl (fun c col => if spriteBit row col then c.toggle (x + col) y else c) c).collision =
      (c.collision || rowCollides row x y c.fb cols) := by
  induction cols generalizing c with
  | nil => simp [rowHits, rowCollides]
  | cons a cols ih =>
    rw [List.pairwise_cons] at hd
    simp only [List.foldl_cons]
    by_cases hb : spriteBit row a = true
    · obtain ⟨h1, h2⟩ := ih (c.toggle (x + a) y) hd.2
      simp only [hb, if_true]
      constructor
      · intro i
        rw [h1, Canvas.toggle_fb]
        have hx : rowHits row x y i (a :: cols) = (decide (pixelIndex (x + a) y = i) || rowHits row x y i cols) := by
          simp [rowHits, hb]
        rw [hx]
        by_cases hi : pixelIndex (x + a) y = i
        · have : rowHits row x y i cols = false := by
            rw [← Bool.not_eq_true, rowHits_eq_true]
            rintro ⟨b, hb', -, he⟩
            exact hd.1 b hb' (hi.trans he.symm)
          simp [hi, this]
        · simp [hi]
      · rw [h2]
        have hc : rowCollides row x y (c.toggle (x + a) y).fb cols = rowCollides row x y c.fb cols := by
          simp only [rowCollides]
          rw [Bool.eq_iff_iff]
          simp only [List.any_eq_true, Bool.and_eq_true]
          refine exists_congr fun b => and_congr_right fun hb' => and_congr_right fun _ => ?_
          rw [Canvas.toggle_fb]
          simp [hd.1 b hb']
        rw [hc]
        simp [Canvas.toggle, rowCollides, hb, Bool.or_assoc]
    · obtain ⟨h1, h2⟩ := ih c hd.2
      simp only [hb, Bool.false_eq_true, if_false]
      constructor
      · intro i; rw [h1]; simp [rowHits, hb]
      · rw [h2]; simp [rowCollides, hb]

theorem columns_pairwise (x y : Nat) :
    (List.range 8).Pairwise fun a b => pixelIndex (x + a) y ≠ pixelIndex (x + b) y := by
  have h : (List.range 8).Pairwise fun a b => a < b ∧ b < 8 := by decide
  refine h.imp fun {a b} hab => ?_
  rw [Ne, pixelIndex_eq_iff]
  omega

/-- One sprite row. -/
theorem Canvas.drawRow_spec (c : Canvas) (row : Byte) (x y : Nat) :
    (∀ i : Fin 2048, (c.drawRow row x y).fb[i.val] = (c.fb[i.val] ^^ rowHits row x y i (List.range 8))) ∧
    (c.drawRow row x y).collision = (c.collision || rowCollides row x y c.fb (List.range 8)) :=
  Canvas.toggles_spec row x y (List.range 8) c (columns_pairwise x y)

/-- Whether a sprite drawn at `(x, y)` has a 1 bit on the pixel with index `i`. -/
def rowsHit : List Byte → Nat → Nat → Fin 2048 → Bool
  | [], _, _, _ => false
  | row :: rows, x, y, i => rowHits row x y i (List.range 8) || rowsHit rows x (y + 1) i

theorem rowsHit_eq_true {rows : List Byte} {x y : Nat} {i : Fin 2048} :
    rowsHit rows x y i = true ↔
      ∃ r, ∃ h : r < rows.length, ∃ col < 8, spriteBit rows[r] col = true ∧ pixelIndex (x + col) (y + r) = i := by
  induction rows generalizing y with
  | nil => simp [rowsHit]
  | cons row rows ih =>
    simp only [rowsHit, Bool.or_eq_true, rowHits_eq_true, ih, List.mem_range, List.length_cons]
    constructor
    · rintro (⟨col, hc, hb, hi⟩ | ⟨r, hr, col, hc, hb, hi⟩)
      · exact ⟨0, by omega, col, hc, hb, hi⟩
      · exact ⟨r + 1, by omega, col, hc, hb, by rw [← hi]; congr 1; omega⟩
    · rintro ⟨r, hr, col, hc, hb, hi⟩
      cases r with
      | zero => exact .inl ⟨col, hc, hb, hi⟩
      | succ r => exact .inr ⟨r, by omega, col, hc, hb, by rw [← hi]; congr 1; omega⟩

/-- A whole sprite of at most 32 rows: each pixel is XORed with the sprite's bit for it, and a collision is recorded when
a 1 bit falls on a set pixel. -/
theorem Canvas.drawRows_spec (rows : List Byte) (x y : Nat) (c : Canvas) (hn : rows.length ≤ 32) :
    (∀ i : Fin 2048, (c.drawRows rows x y).fb[i.val] = (c.fb[i.val] ^^ rowsHit rows x y i)) ∧
    ((c.drawRows rows x y).collision = true ↔
      c.collision = true ∨ ∃ i : Fin 2048, rowsHit rows x y i = true ∧ c.fb[i.val] = true) := by
  induction rows generalizing y c with
  | nil => simp [Canvas.drawRows, rowsHit]
  | cons row rows ih =>
    simp only [List.length_cons] at hn
    obtain ⟨h1, h2⟩ := ih (y + 1) (c.drawRow row x y) (by omega)
    obtain ⟨g1, g2⟩ := Canvas.drawRow_spec c row x y
    have disj : ∀ i, rowHits row x y i (List.range 8) = true → rowsHit rows x (y + 1) i = false := by
      intro i hi
      rw [← Bool.not_eq_true, rowsHit_eq_true]
      rintro ⟨r, hr, col, -, -, he⟩
      obtain ⟨col', -, -, hi⟩ := rowHits_eq_true.mp hi
      have := (pixelIndex_eq_iff _ _ _ _).mp (hi.trans he.symm)
      omega
    simp only [Canvas.drawRows]
    constructor
    · intro i
      rw [h1, g1, rowsHit]
      cases hr : rowHits row x y i (List.range 8) with
      | true => simp [disj i hr]
      | false => simp
    · rw [h2, g2]
      have hcol : rowCollides row x y c.fb (List.range 8) = true ↔
          ∃ i : Fin 2048, rowHits row x y i (List.range 8) = true ∧ c.fb[i.val] = true := by
        simp only [rowCollides, List.any_eq_true, Bool.and_eq_true, rowHits_eq_true]
        constructor
        · rintro ⟨col, hc, hb, hf⟩
          exact ⟨_, ⟨col, hc, hb, rfl⟩, hf⟩
        · rintro ⟨i, ⟨col, hc, hb, rfl⟩, hf⟩
          exact ⟨col, hc, hb, hf⟩
      rw [Bool.or_eq_true, hcol, or_assoc]
      refine or_congr_right ?_
      rw [← exists_or]
      refine exists_congr fun i => ?_
      simp only [rowsHit, Bool.or_eq_true]
      rw [g1]
      cases hr : rowHits row x y i (List.range 8) with
      | true => simp [disj i hr]
      | false => simp

/-- The sprite's bits as the statements name them. -/
theorem State.spriteHits_eq_rowsHit (s : State) (n x0 y0 : Nat) (px : Fin 64) (py : Fin 32) :
    s.spriteHits n x0 y0 px py = rowsHit (s.loadRun s.base n) x0 y0 (pixelIndex px.val py.val) := by
  have hx := px.isLt
  have hy := py.isLt
  rw [Bool.eq_iff_iff, rowsHit_eq_true]
  simp only [State.spriteHits, List.any_eq_true, List.mem_range, Bool.and_eq_true, decide_eq_true_eq,
    State.loadRun_length]
  constructor
  · rintro ⟨r, hr, col, hc, ⟨hb, h1⟩, h2⟩
    refine ⟨r, hr, col, hc, ?_, ?_⟩
    · rw [State.loadRun_getElem s s.base n r hr]; exact hb
    · rw [pixelIndex_eq_iff]; omega
  · rintro ⟨r, hr, col, hc, hb, he⟩
    rw [State.loadRun_getElem s s.base n r hr] at hb
    rw [pixelIndex_eq_iff] at he
    exact ⟨r, hr, col, hc, ⟨hb, by omega⟩, by omega⟩

/-- Every display index is a pixel. -/
theorem exists_pixelIndex (i : Fin 2048) : ∃ (px : Fin 64) (py : Fin 32), pixelIndex px.val py.val = i := by
  have := i.isLt
  refine ⟨⟨i.val % 64, by omega⟩, ⟨i.val / 64, by omega⟩, Fin.ext ?_⟩
  simp only [pixelIndex]
  omega

end Sys2Proof.Machine
end

