-- ==== Sys2Proof/Laws/HostOps.lean ====
section
/-! SUPPORT. What `construct()` makes for any font, field by field and byte by byte, and what `tick()` does by
the outcome of the fetch and of the instruction. -/

namespace Sys2Proof.Machine

/-! Fields after `construct`. -/

@[simp] theorem construct_v (font : Font) : (construct font).v = Vector.replicate 16 0 := rfl
@[simp] theorem construct_i (font : Font) : (construct font).i = 0 := rfl
@[simp] theorem construct_pc (font : Font) : (construct font).pc = 512 := rfl
@[simp] theorem construct_sp (font : Font) : (construct font).sp = 0 := rfl
@[simp] theorem construct_stack (font : Font) : (construct font).stack = Vector.replicate 16 0 := rfl
@[simp] theorem construct_fb (font : Font) : (construct font).fb = Vector.replicate 2048 false := rfl
@[simp] theorem construct_keys (font : Font) : (construct font).keys = Vector.replicate 16 false := rfl
@[simp] theorem construct_dt (font : Font) : (construct font).dt = 0 := rfl
@[simp] theorem construct_st (font : Font) : (construct font).st = 0 := rfl
@[simp] theorem construct_draws (font : Font) : (construct font).draws = 0 := rfl

/-! Memory after `construct`. -/

theorem construct_mem_wf (font : Font) : (construct font).mem.wf = true :=
  Memory.wf_putRun _ _ _ State.reset_mem_wf (by simp [memSize])

/-- The font, byte by byte. -/
theorem construct_readByte_font (font : Font) {a : Nat} (h : a < 80) : (construct font).readByte a = some font[a] := by
  have := State.readByte_storeRun_inside State.reset 0 font.toList State.reset_mem_wf (by simp [memSize]) a (by simpa)
  simpa [construct] using this

/-- Zero above the font. -/
theorem construct_readByte_above (font : Font) {a : Nat} (h : 80 ≤ a) (ha : a < memSize) :
    (construct font).readByte a = some 0 := by
  rw [construct, State.readByte_storeRun_outside _ _ _ _ (by simp; omega), State.readByte_of_lt _ ha]
  have : fontTable.length ≤ a := h
  simp [State.reset, Memory.peek, resetByte, this]

/-! The tick, by the outcome of the fetch and of the instruction. -/

theorem tick_of_fetch_fault {s : State} (h : s.pc.toNat + 1 > 4095) : tick s = ⟨s, .fault (.fetchOutOfBounds s.pc)⟩ := by
  simp only [tick, fetch_fault h]

theorem tick_of_execute_next {s u : State} (h : s.pc.toNat + 1 ≤ 4095)
    (he : execute (bigEndian (s.mem.peek s.pc.toNat) (s.mem.peek (s.pc.toNat + 1))) (s.setPc (s.pc + 2)) = .next u) :
    tick s = ⟨u, .ok⟩ := by
  simp only [tick, fetch_ok h, he]

theorem tick_of_execute_fault {s : State} {f : Fault} (h : s.pc.toNat + 1 ≤ 4095)
    (he : execute (bigEndian (s.mem.peek s.pc.toNat) (s.mem.peek (s.pc.toNat + 1))) (s.setPc (s.pc + 2)) = .fault f) :
    tick s = ⟨s.setPc (s.pc + 2), .fault f⟩ := by
  simp only [tick, fetch_ok h, he]

end Sys2Proof.Machine
end

