-- ==== Sys2Proof/Laws/PerInstr.lean ====
section
/-! SUPPORT. Per instruction: the word it encodes to is a word of its own row of the opcode map (30_encoding.md R64). -/

namespace Sys2Proof.Laws.EncodesItsRow

/-- A well-formed instruction encodes to a word of its row. -/
def Statement (i : Instr) : Prop := i.wellFormed = true → i.row.selects (encode i) = true

/-- A word packed from four nibbles is on a row that each nibble agrees with under the mask. -/
theorem packed_on_row {r : OpcodeRow} {t x y n : Nat} (ht : t < 16) (hx : x < 16) (hy : y < 16) (hn : n < 16)
    (h : t &&& bits 15 12 r.mask = bits 15 12 r.pattern ∧ x &&& bits 11 8 r.mask = bits 11 8 r.pattern ∧
      y &&& bits 7 4 r.mask = bits 7 4 r.pattern ∧ n &&& bits 3 0 r.mask = bits 3 0 r.pattern) :
    r.selects (packXYN t x y n) = true := by
  obtain ⟨a, b, c, d⟩ := packXYN_nibbles ht hx hy hn
  rw [OpcodeRow.selects_iff, a, b, c, d]
  exact h

/-- The same for a word packed from `t`, `x` and a low byte. -/
theorem packed_byte_on_row {r : OpcodeRow} {t x kk : Nat} (ht : t < 16) (hx : x < 16) (hk : kk < 256)
    (h : t &&& bits 15 12 r.mask = bits 15 12 r.pattern ∧ x &&& bits 11 8 r.mask = bits 11 8 r.pattern ∧
      kk / 16 &&& bits 7 4 r.mask = bits 7 4 r.pattern ∧ kk % 16 &&& bits 3 0 r.mask = bits 3 0 r.pattern) :
    r.selects (packXKK t x kk) = true := by
  rw [packXKK_eq]
  exact packed_on_row ht hx (by omega) (by omega) h

/-- The same for a word packed from `t` and a 12-bit immediate, on a row that fixes `t` only. -/
theorem packed_imm_on_row {r : OpcodeRow} {t : Nat} (ht : t < 16) (nnn : Imm12)
    (h : t &&& bits 15 12 r.mask = bits 15 12 r.pattern ∧ bits 11 8 r.mask = 0 ∧ bits 7 4 r.mask = 0 ∧
      bits 3 0 r.mask = 0 ∧ bits 11 8 r.pattern = 0 ∧ bits 7 4 r.pattern = 0 ∧ bits 3 0 r.pattern = 0) :
    r.selects (packNNN t nnn.toNat) = true := by
  have := nnn.isLt
  rw [packNNN_eq]
  obtain ⟨h1, h2, h3, h4, h5, h6, h7⟩ := h
  exact packed_on_row ht (by omega) (by omega) (by omega) (by simp [*])

theorem nop : Statement (.nop) := fun _ => by decide

theorem cls : Statement (.cls) := fun _ => by decide

theorem ret : Statement (.ret) := fun _ => by decide

theorem jp (nnn : Imm12) : Statement (.jp nnn) :=
  fun _ => packed_imm_on_row (by decide) nnn (by simp [Instr.row, bits])

theorem call (nnn : Imm12) : Statement (.call nnn) :=
  fun _ => packed_imm_on_row (by decide) nnn (by simp [Instr.row, bits])

theorem seImm (x : Reg) (kk : Byte) : Statement (.seImm x kk) :=
  fun _ => packed_byte_on_row (by decide) x.isLt kk.isLt (by simp [Instr.row, bits])

theorem sneImm (x : Reg) (kk : Byte) : Statement (.sneImm x kk) :=
  fun _ => packed_byte_on_row (by decide) x.isLt kk.isLt (by simp [Instr.row, bits])

theorem seReg (x y : Reg) : Statement (.seReg x y) :=
  fun _ => packed_on_row (by decide) x.isLt y.isLt (by decide) (by simp [Instr.row, bits])

theorem ldImm (x : Reg) (kk : Byte) : Statement (.ldImm x kk) :=
  fun _ => packed_byte_on_row (by decide) x.isLt kk.isLt (by simp [Instr.row, bits])

theorem addImm (x : Reg) (kk : Byte) : Statement (.addImm x kk) :=
  fun _ => packed_byte_on_row (by decide) x.isLt kk.isLt (by simp [Instr.row, bits])

theorem ldReg (x y : Reg) : Statement (.ldReg x y) :=
  fun _ => packed_on_row (by decide) x.isLt y.isLt (by decide) (by simp [Instr.row, bits])

theorem orReg (x y : Reg) : Statement (.orReg x y) :=
  fun _ => packed_on_row (by decide) x.isLt y.isLt (by decide) (by simp [Instr.row, bits])

theorem andReg (x y : Reg) : Statement (.andReg x y) :=
  fun _ => packed_on_row (by decide) x.isLt y.isLt (by decide) (by simp [Instr.row, bits])

theorem xorReg (x y : Reg) : Statement (.xorReg x y) :=
  fun _ => packed_on_row (by decide) x.isLt y.isLt (by decide) (by simp [Instr.row, bits])

theorem addReg (x y : Reg) : Statement (.addReg x y) :=
  fun _ => packed_on_row (by decide) x.isLt y.isLt (by decide) (by simp [Instr.row, bits])

theorem subReg (x y : Reg) : Statement (.subReg x y) :=
  fun _ => packed_on_row (by decide) x.isLt y.isLt (by decide) (by simp [Instr.row, bits])

theorem shr (x : Reg) : Statement (.shr x) :=
  fun _ => packed_on_row (by decide) x.isLt (by decide) (by decide) (by simp [Instr.row, bits])

theorem subn (x y : Reg) : Statement (.subn x y) :=
  fun _ => packed_on_row (by decide) x.isLt y.isLt (by decide) (by simp [Instr.row, bits])

theorem shl (x : Reg) : Statement (.shl x) :=
  fun _ => packed_on_row (by decide) x.isLt (by decide) (by decide) (by simp [Instr.row, bits])

theorem sneReg (x y : Reg) : Statement (.sneReg x y) :=
  fun _ => packed_on_row (by decide) x.isLt y.isLt (by decide) (by simp [Instr.row, bits])

theorem ldI (nnn : Imm12) : Statement (.ldI nnn) :=
  fun _ => packed_imm_on_row (by decide) nnn (by simp [Instr.row, bits])

theorem jpV0 (nnn : Imm12) : Statement (.jpV0 nnn) :=
  fun _ => packed_imm_on_row (by decide) nnn (by simp [Instr.row, bits])

theorem rnd (x : Reg) (kk : Byte) : Statement (.rnd x kk) :=
  fun _ => packed_byte_on_row (by decide) x.isLt kk.isLt (by simp [Instr.row, bits])

theorem drw (x y : Reg) (n : Nat) : Statement (.drw x y n) :=
  fun h => packed_on_row (by decide) x.isLt y.isLt (of_decide_eq_true h) (by simp [Instr.row, bits])

theorem skp (x : Reg) : Statement (.skp x) :=
  fun _ => packed_byte_on_row (by decide) x.isLt (by decide) (by simp [Instr.row, bits])

theorem sknp (x : Reg) : Statement (.sknp x) :=
  fun _ => packed_byte_on_row (by decide) x.isLt (by decide) (by simp [Instr.row, bits])

theorem ldVxDt (x : Reg) : Statement (.ldVxDt x) :=
  fun _ => packed_byte_on_row (by decide) x.isLt (by decide) (by simp [Instr.row, bits])

theorem ldVxK (x : Reg) : Statement (.ldVxK x) :=
  fun _ => packed_byte_on_row (by decide) x.isLt (by decide) (by simp [Instr.row, bits])

theorem ldDtVx (x : Reg) : Statement (.ldDtVx x) :=
  fun _ => packed_byte_on_row (by decide) x.isLt (by decide) (by simp [Instr.row, bits])

theorem ldStVx (x : Reg) : Statement (.ldStVx x) :=
  fun _ => packed_byte_on_row (by decide) x.isLt (by decide) (by simp [Instr.row, bits])

theorem addI (x : Reg) : Statement (.addI x) :=
  fun _ => packed_byte_on_row (by decide) x.isLt (by decide) (by simp [Instr.row, bits])

theorem ldF (x : Reg) : Statement (.ldF x) :=
  fun _ => packed_byte_on_row (by decide) x.isLt (by decide) (by simp [Instr.row, bits])

theorem ldB (x : Reg) : Statement (.ldB x) :=
  fun _ => packed_byte_on_row (by decide) x.isLt (by decide) (by simp [Instr.row, bits])

theorem stRegs (x : Reg) : Statement (.stRegs x) :=
  fun _ => packed_byte_on_row (by decide) x.isLt (by decide) (by simp [Instr.row, bits])

theorem ldRegs (x : Reg) : Statement (.ldRegs x) :=
  fun _ => packed_byte_on_row (by decide) x.isLt (by decide) (by simp [Instr.row, bits])

end Sys2Proof.Laws.EncodesItsRow
end

