-- ==== Sys2Proof/Tests/Slice0.lean ====
section
/-! SUPPORT. The model's own tests. Expected values are those of spec/95_test_vectors.md (vector named at each test) or
are worked out by hand from the rule named; the witnesses show that the hypotheses of the statements can be met. -/

open Sys2Proof Sys2Proof.Machine

namespace Sys2Proof.Tests

/-- One tick of opcode `op`, placed where the next fetch reads it. -/
def run (op : Nat) (s : State) : Result := step (s.withFetchWord 16 op)

/-- What `f` reads in the next state, if the outcome is one. -/
def see {α : Type} (f : State → α) : Result → Option α
  | .next s => some (f s)
  | .fault _ => none
  | .refused _ => none

/-- The fault of an outcome. -/
def faultOf : Result → Option Fault
  | .fault f => some f
  | .next _ => none
  | .refused _ => none

/-- A state with three registers set. -/
def regs3 (x : Reg) (a : Byte) (y : Reg) (b : Byte) (z : Reg) (c : Byte) : State :=
  ((State.reset.setReg x a).setReg y b).setReg z c

/-- `pc` of the next state. -/
def pcAfter (r : Result) : Option Nat := see (fun s => s.pc.toNat) r

/-- `V[x]` and `VF` of the next state. -/
def regAfter (x : Reg) (r : Result) : Option (Nat × Nat) := see (fun s => ((s.reg x).toNat, (s.reg VF).toNat)) r

/-- The bytes from `a` up in the next state. -/
def bytesAfter (a n : Nat) (r : Result) : Option (List Byte) := see (fun s => s.loadRun a n) r

/-- The set pixels of a display among the given linear indices. -/
def lit (s : State) (among : List Nat) : List Nat := among.filter fun k => s.fb.toList.getD k false

/-- The display with exactly the given linear indices set. -/
def draw (on : List Nat) : Vector Bool 2048 :=
  on.foldl (fun d k => d.setIfInBounds k true) (Vector.replicate 2048 false)

/-- Set pixels among the given indices, how many pixels are set in all, and `VF`, in the next state. -/
def drawAfter (among : List Nat) (r : Result) : Option (List Nat × Nat × Nat) :=
  see (fun s => (lit s among, s.fb.toList.countP id, (s.reg VF).toNat)) r

/-! WellFormed: the one check, and a term it refuses. -/

theorem test_wellFormed_refuses_sixteen_rows : (Instr.drw 0 0 16).wellFormed = false := by decide
theorem test_wellFormed_accepts_fifteen_rows : (Instr.drw 15 15 15).wellFormed = true := by decide

/-! Decode: a word of every row, written out from the encoding of 30_encoding.md R64. -/

theorem test_decode_fixed_and_nnn :
    decodeOp 0x0000 = .ok .nop ∧ decodeOp 0x00E0 = .ok .cls ∧ decodeOp 0x00EE = .ok .ret ∧
    decodeOp 0x1ABC = .ok (.jp 0xABC) ∧ decodeOp 0x230A = .ok (.call 0x30A) ∧ decodeOp 0xA123 = .ok (.ldI 0x123) ∧
    decodeOp 0xBFFE = .ok (.jpV0 0xFFE) := by decide

theorem test_decode_xkk :
    decodeOp 0x3342 = .ok (.seImm 3 0x42) ∧ decodeOp 0x4C9D = .ok (.sneImm 12 0x9D) ∧
    decodeOp 0x6A7F = .ok (.ldImm 10 0x7F) ∧ decodeOp 0x71FF = .ok (.addImm 1 0xFF) ∧
    decodeOp 0xC30F = .ok (.rnd 3 0x0F) := by decide

theorem test_decode_xy :
    decodeOp 0x5120 = .ok (.seReg 1 2) ∧ decodeOp 0x9340 = .ok (.sneReg 3 4) ∧ decodeOp 0x8120 = .ok (.ldReg 1 2) ∧
    decodeOp 0x8121 = .ok (.orReg 1 2) ∧ decodeOp 0x8122 = .ok (.andReg 1 2) ∧ decodeOp 0x8123 = .ok (.xorReg 1 2) ∧
    decodeOp 0x81F4 = .ok (.addReg 1 15) ∧ decodeOp 0x8F15 = .ok (.subReg 15 1) ∧ decodeOp 0x8126 = .ok (.shr 1) ∧
    decodeOp 0x8127 = .ok (.subn 1 2) ∧ decodeOp 0x8F3E = .ok (.shl 15) ∧ decodeOp 0xD12F = .ok (.drw 1 2 15) := by decide

theorem test_decode_x :
    decodeOp 0xE29E = .ok (.skp 2) ∧ decodeOp 0xE2A1 = .ok (.sknp 2) ∧ decodeOp 0xF507 = .ok (.ldVxDt 5) ∧
    decodeOp 0xF30A = .ok (.ldVxK 3) ∧ decodeOp 0xF515 = .ok (.ldDtVx 5) ∧ decodeOp 0xF518 = .ok (.ldStVx 5) ∧
    decodeOp 0xF21E = .ok (.addI 2) ∧ decodeOp 0xF429 = .ok (.ldF 4) ∧ decodeOp 0xF033 = .ok (.ldB 0) ∧
    decodeOp 0xF155 = .ok (.stRegs 1) ∧ decodeOp 0xFF65 = .ok (.ldRegs 15) := by decide

/-- V-F6 to V-F10 and S11. -/
theorem test_decode_illegal :
    [0x0001, 0x00E1, 0x0123, 0x5121, 0x9AB3, 0x8128, 0x812F, 0xE09F, 0xE1A2, 0xF000, 0xF075, 0xF1FF].all
      (fun w : Word => decide (decodeOp w = .error (.unsupported w))) = true := by decide

theorem test_decode_bytes_are_big_endian :
    decodeBytes [0x12, 0x34, 0x56] = .ok (.jp 0x234, [0x56]) ∧ decodeBytes [0x12] = .error (.truncated 1) ∧
    decodeTableWord 16 0x6A7F = some (.ldImm 10 0x7F) ∧ decodeTableWord 16 0x5121 = none := by decide

/-- R69: SHR V1 assembles to 0x8106. -/
theorem test_encode :
    encode (.shr 1) = 0x8106 ∧ encode (.drw 0 1 2) = 0xD012 ∧ encode (.skp 2) = 0xE29E ∧ encode (.jp 0xABC) = 0x1ABC := by
  decide

theorem test_opcode_map_has_35_disjoint_rows :
    opcodeRows.length = 35 ∧
    opcodeRows.Pairwise (fun r r' => (r.pattern ^^^ r'.pattern) &&& r.mask &&& r'.mask ≠ 0) := by decide +kernel

/-! Memory (20_memory.md). -/

theorem test_memory_write_of_reset_byte_removes_the_entry :
    (Memory.put (Memory.put [] 0x300 7) 0x300 0) = [] ∧ (Memory.put (Memory.put [] 0 0xAB) 0 0xF0) = [] ∧
    (Memory.put (Memory.put [] 5 1) 3 2) = [(3, 2), (5, 1)] := by decide

theorem test_memory_wf_refuses :
    Memory.wf [(3, 2), (3, 1)] = false ∧ Memory.wf [(0x300, 0)] = false ∧ Memory.wf [(4096, 1)] = false ∧
    Memory.wf [(0, 0xF0)] = false ∧ Memory.wf [(3, 2), (4095, 1)] = true := by decide

theorem test_read_beyond_memory_is_none :
    State.reset.readByte 4095 = some 0 ∧ State.reset.readByte 4096 = none ∧ State.reset.readByte 5 = some 0x20 := by decide

/-! Control transfer. -/

/-- V-F2, V-F4: an odd `pc` fetches; `pc = 0xFFF` does not. -/
theorem test_fetch_odd_and_last :
    pcAfter (run 0x6A7F (State.reset.setPc 0x201)) = some 0x203 ∧
    faultOf (step (State.reset.setPc 0xFFF)) = some (.fetchOutOfBounds 0xFFF) := by decide

/-- V-C1. -/
theorem test_nop : pcAfter (run 0x0000 State.reset) = some 0x202 := by decide
/-- V-C2. -/
theorem test_jp : pcAfter (run 0x1ABC State.reset) = some 0xABC := by decide
/-- V-C16. -/
theorem test_jpV0 : pcAfter (run 0xBFFF (State.reset.setReg 0 0xFF)) = some 0x10FE := by decide
/-- V-C6. -/
theorem test_call_last_slot :
    see (fun s => (s.stack[15], s.sp.val, s.pc)) (run 0x2300 (State.reset.setStack State.reset.stack 15)) =
      some (0x202, 16, 0x300) := by decide
/-- V-C7. -/
theorem test_call_overflow :
    faultOf (run 0x2300 (State.reset.setStack State.reset.stack 16)) = some .stackOverflow := by decide
/-- V-C8. -/
theorem test_ret :
    see (fun s => (s.pc, s.sp.val, s.stack[0])) (run 0x00EE (State.reset.setStack (State.reset.stack.set 0 0x206) 1)) =
      some (0x206, 0, 0x206) := by decide
/-- V-C9. -/
theorem test_ret_underflow : faultOf (run 0x00EE State.reset) = some .stackUnderflow := by decide
/-- V-C10. -/
theorem test_seImm :
    pcAfter (run 0x3342 (State.reset.setReg 3 0x42)) = some 0x204 ∧
    pcAfter (run 0x3343 (State.reset.setReg 3 0x42)) = some 0x202 := by decide
/-- V-C11. -/
theorem test_sneImm :
    pcAfter (run 0x4342 (State.reset.setReg 3 0x42)) = some 0x202 ∧
    pcAfter (run 0x4343 (State.reset.setReg 3 0x42)) = some 0x204 := by decide
/-- V-C12, V-C13. -/
theorem test_seReg :
    pcAfter (run 0x5120 (regs3 1 7 2 7 0 0)) = some 0x204 ∧ pcAfter (run 0x5120 (regs3 1 7 2 8 0 0)) = some 0x202 := by
  decide
/-- V-C12, V-C13. -/
theorem test_sneReg :
    pcAfter (run 0x9120 (regs3 1 7 2 7 0 0)) = some 0x202 ∧ pcAfter (run 0x9120 (regs3 1 7 2 8 0 0)) = some 0x204 := by
  decide

/-! Register load, arithmetic, logic, shift, random. -/

/-- V-A1. -/
theorem test_ldImm : regAfter 10 (run 0x6A7F State.reset) = some (0x7F, 0) := by decide
/-- V-A2. -/
theorem test_addImm : regAfter 10 (run 0x7A02 (State.reset.setReg 10 0xFF)) = some (1, 0) := by decide
/-- V-A5. -/
theorem test_ldReg : regAfter 1 (run 0x8120 (State.reset.setReg 2 9)) = some (9, 0) := by decide
/-- V-A6. -/
theorem test_orReg : regAfter 1 (run 0x8121 (regs3 1 0x0C 2 0x0A VF 1)) = some (0x0E, 1) := by decide
/-- V-A7. -/
theorem test_andReg : regAfter 1 (run 0x8122 (regs3 1 0x0C 2 0x0A VF 1)) = some (0x08, 1) := by decide
/-- V-A8. -/
theorem test_xorReg : regAfter 1 (run 0x8123 (regs3 1 0x0C 2 0x0A VF 1)) = some (0x06, 1) := by decide
/-- V-A10. -/
theorem test_addReg : regAfter 1 (run 0x8124 (regs3 1 0x80 2 0x80 0 0)) = some (0, 1) := by decide
/-- V-A13: the carry overwrites the sum. -/
theorem test_addReg_into_flag : regAfter 1 (run 0x8F14 (regs3 VF 200 1 100 0 0)) = some (100, 1) := by decide
/-- V-A17. -/
theorem test_subReg : regAfter 1 (run 0x8125 (regs3 1 0 2 1 VF 9)) = some (0xFF, 0) := by decide
/-- V-A18. -/
theorem test_subReg_into_flag : regAfter 1 (run 0x8F15 (regs3 VF 3 1 5 0 0)) = some (5, 0) := by decide
/-- V-A23: `V[y]` is ignored. -/
theorem test_shr : regAfter 1 (run 0x8126 (regs3 1 4 2 0xFF VF 1)) = some (2, 0) := by decide
/-- V-A24. -/
theorem test_shr_of_flag : regAfter VF (run 0x8F06 (State.reset.setReg VF 3)) = some (0, 0) := by decide
/-- V-A27. -/
theorem test_subn : regAfter 1 (run 0x8127 (regs3 1 2 2 1 VF 9)) = some (0xFF, 0) := by decide
/-- V-A28. -/
theorem test_subn_equal : regAfter 1 (run 0x8127 (regs3 1 7 2 7 0 0)) = some (0, 1) := by decide
/-- V-A31. -/
theorem test_shl : regAfter 1 (run 0x810E (State.reset.setReg 1 0x81)) = some (2, 1) := by decide
/-- V-A34. -/
theorem test_shl_of_flag : regAfter VF (run 0x8F0E (State.reset.setReg VF 0x80)) = some (2, 2) := by decide
/-- V-A38: with mask 0xFF the draw itself, whatever it is. -/
theorem test_rnd : see (fun s => (s.reg 3, s.draws)) (run 0xC3FF State.reset) =
    some (Config.randomByte 0 &&& 0xFF, 1) := rfl

/-! Index register, BCD, block transfer. -/

/-- V-M1. -/
theorem test_ldI : see (fun s => s.i) (run 0xA123 State.reset) = some 0x123 := by decide
/-- V-M4. -/
theorem test_addI : see (fun s => s.i) (run 0xF21E ((State.reset.setI 0xFFFF).setReg 2 2)) = some 1 := by decide
/-- V-M6. -/
theorem test_ldF : see (fun s => s.i.toNat) (run 0xF429 (State.reset.setReg 4 0xFF)) = some 1275 := by decide
/-- V-M8. -/
theorem test_ldB : bytesAfter 0xFFD 3 (run 0xF033 ((State.reset.setI 0xFFD).setReg 0 157)) = some [1, 5, 7] := by decide
/-- V-M9. -/
theorem test_ldB_out_of_bounds : faultOf (run 0xF033 (State.reset.setI 0xFFE)) = some (.memOutOfBounds 0x1000) := by decide
/-- V-M11. -/
theorem test_stRegs :
    bytesAfter 0x300 3 (run 0xF155 ((regs3 0 1 1 2 2 3).setI 0x300)) = some [1, 2, 0] := by decide
/-- V-M15: address 65536 does not wrap to 0. -/
theorem test_stRegs_does_not_wrap : faultOf (run 0xF155 (State.reset.setI 0xFFFF)) = some (.memOutOfBounds 0xFFFF) := by
  decide
/-- V-M16. -/
theorem test_ldRegs :
    see (fun s => (s.reg 0, s.reg 1, s.reg 2, s.reg 3, s.i))
      (run 0xF265 (((State.reset.storeRun 0x300 [1, 5, 7]).setI 0x300).setReg 3 0xEE)) = some (1, 5, 7, 0xEE, 0x300) := by
  decide
/-- V-M18. -/
theorem test_ldRegs_out_of_bounds : faultOf (run 0xF265 (State.reset.setI 0xFFE)) = some (.memOutOfBounds 0x1000) := by
  decide

/-! Display. -/

/-- V-X1. -/
theorem test_cls :
    drawAfter [] (run 0x00E0 ((State.reset.setReg VF 3).setDisplay (draw [0, 100, 2047]))) = some ([], 0, 3) := by
  decide +kernel
/-- The example of R136, and V-X12: a sprite across both edges; a run that leaves memory draws nothing. -/
theorem test_drw :
    drawAfter [2046, 2047, 1984, 1985, 1986, 1987, 1988, 1989, 62, 5]
      (run 0xD012 (((regs3 0 62 1 31 VF 9).storeRun 0x20E [0xFF, 0x81]).setI 0x20E)) =
      some ([2046, 2047, 1984, 1985, 1986, 1987, 1988, 1989, 62, 5], 10, 0) ∧
    faultOf (run 0xD012 (State.reset.setI 0xFFF)) = some (.memOutOfBounds 0x1000) := by decide +kernel
/-- V-X8, V-X11: a collision; an empty sprite faults nowhere and clears the flag. -/
theorem test_drw_collision :
    drawAfter [0, 1, 2, 3] (run 0xD011 (((State.reset.setDisplay (draw [0, 1, 2, 3])).storeRun 0x300 [0x90]).setI 0x300)) =
      some ([1, 2], 2, 1) ∧
    drawAfter [5] (run 0xD010 (((State.reset.setDisplay (draw [5])).setI 0xFFFF).setReg VF 1)) = some ([5], 1, 0) := by
  decide +kernel

/-! Timers and keys. -/

/-- V-T1, V-T3. -/
theorem test_skp :
    pcAfter (run 0xE29E ((State.reset.setReg 2 5).setKeys (State.reset.keys.set 5 true))) = some 0x204 ∧
    faultOf (run 0xE29E (State.reset.setReg 2 16)) = some (.keyIndexOutOfRange 16) := by decide
/-- V-T1, V-T2. -/
theorem test_sknp :
    pcAfter (run 0xE2A1 ((State.reset.setReg 2 5).setKeys (State.reset.keys.set 5 true))) = some 0x202 ∧
    pcAfter (run 0xE2A1 (State.reset.setReg 2 5)) = some 0x204 := by decide
/-- V-T5. -/
theorem test_ldVxDt : see (fun s => (s.reg 5, s.dt)) (run 0xF507 (State.reset.setDt 0x3C)) = some (0x3C, 0x3C) := by decide
/-- V-T7. -/
theorem test_ldVxK_waits : pcAfter (run 0xF30A State.reset) = some 0x200 := by decide
/-- V-T8. -/
theorem test_ldVxK_least :
    see (fun s => (s.reg 3, s.pc)) (run 0xF30A (State.reset.setKeys ((State.reset.keys.set 3 true).set 9 true))) =
      some (3, 0x202) := by decide
/-- V-T6. -/
theorem test_ldDtVx : see (fun s => (s.dt, s.st)) (run 0xF515 (State.reset.setReg 5 7)) = some (7, 0) := by decide
/-- V-T6. -/
theorem test_ldStVx : see (fun s => (s.dt, s.st)) (run 0xF518 (State.reset.setReg 5 7)) = some (0, 7) := by decide

/-! Host operations. -/

/-- V-T11, V-T12, S9. -/
theorem test_tickTimers :
    (tickTimers ((State.reset.setDt 5).setSt 1)).state.dt = 4 ∧ (tickTimers ((State.reset.setDt 5).setSt 1)).state.st = 0 ∧
    (tickTimers (State.reset.setSt 1)).reply = .okFlag true ∧ (tickTimers (State.reset.setSt 2)).reply = .okFlag false ∧
    (tickTimers State.reset).reply = .okFlag false ∧ (tickTimers State.reset).state.dt = 0 := by decide
/-- V-T15, V-T16. -/
theorem test_setKey :
    (setKey 15 true State.reset).state.key 15 = true ∧ (setKey 16 true State.reset).reply = .fault (.invalidKeyIndex 16) := by
  decide
/-- V-R2, V-R4, V-R5. -/
theorem test_load :
    (load [0x12, 0x00] State.reset).state.mem = [(0x200, 0x12)] ∧ (load [] State.reset).state.mem = [] ∧
    (load (List.replicate 3585 0) State.reset).reply = .fault (.imageTooLarge 3585) := by decide +kernel
/-- V-C9 and S11 with R164: after the fault `pc` is past the opcode, and the next tick goes on. -/
theorem test_tick_after_fault :
    (tick (load [0x00, 0xEE, 0x6A, 0x7F] State.reset).state).reply = .fault .stackUnderflow ∧
    (runOps defaultFont [.tick, .tick] (load [0x00, 0xEE, 0x6A, 0x7F] State.reset).state).reg 10 = 0x7F ∧
    (runOps defaultFont [.tick, .tick] (load [0x00, 0xEE, 0x6A, 0x7F] State.reset).state).pc = 0x204 := by decide +kernel
/-- R26, R31, R48: any font may be given, 0 above it; a store into the font region lasts until `reset()`. -/
theorem test_construct_and_reset_seed_the_font :
    (construct (Vector.replicate 80 0xAA)).readByte 79 = some 0xAA ∧
    (construct (Vector.replicate 80 0xAA)).readByte 80 = some 0 ∧ (construct defaultFont).readByte 50 = some 0xF0 ∧
    ((construct (Vector.replicate 80 0xAA)).storeRun 5 [1]).readByte 5 = some 1 ∧
    (resetOp (Vector.replicate 80 0xAA) ((construct defaultFont).storeRun 5 [1])).state.readByte 5 = some 0xAA := by
  decide +kernel
theorem test_fault_codes :
    [Fault.fetchOutOfBounds 0, .unsupportedOpcode 0, .stackOverflow, .stackUnderflow, .memOutOfBounds 0,
      .keyIndexOutOfRange 0, .invalidKeyIndex 0, .imageTooLarge 0].map Fault.code = [1, 2, 3, 4, 5, 6, 7, 8] := by decide

/-! Witnesses: concrete states and operands that meet all the hypotheses of a statement together, at the boundary of each
of its clauses. -/

/-- The instruction answers a next state in which `p` holds. -/
def Reaches (i : Instr) (s : State) (p : State → Prop) : Prop := ∃ t, exec i s = .next t ∧ p t

theorem test_witness_DecodeInvertsEncode :
    (Instr.drw 15 15 15).wellFormed = true ∧ (Instr.jp 0xFFF).wellFormed = true := by decide

theorem test_witness_EncodeInvertsDecode :
    decodeOp 0xDFFF = .ok (.drw 15 15 15) ∧ decodeOp 0x8F36 = .ok (.shr 15) := by decide

theorem test_witness_DecoderAgreesWithTheOpcodeMap :
    Instr.row (.jp 0) ∈ opcodeRows ∧ (Instr.row (.jp 0)).selects 0x1FFF = true ∧
    ∀ r ∈ opcodeRows, r.selects 0x5121 = false := by decide

theorem test_witness_OnlyShiftsIgnoreAField :
    decodeOp 0x8F36 = .ok (.shr 15) ∧ decodeOp 0x8F06 = .ok (.shr 15) ∧ (0x8F36 : Word) ≠ 0x8F06 := by decide

/-- The last address that can be fetched from. -/
theorem test_witness_StepRunsTheDecodedInstruction :
    ((State.reset.setPc 4094).withFetchWord 16 0x6A7F).OpcodeAtPc 0x6A7F ∧
    decodeOp 0x6A7F = .ok (.ldImm 10 0x7F) := ⟨⟨0x6A, 0x7F, by decide⟩, by decide⟩

theorem test_witness_UnmappedOpcodeFaults :
    (State.reset.withFetchWord 16 0x5121).OpcodeAtPc 0x5121 ∧ ∀ r ∈ opcodeRows, r.selects 0x5121 = false :=
  ⟨⟨0x51, 0x21, by decide⟩, by decide⟩

theorem test_witness_FetchBeyondMemoryFaults :
    4095 ≤ (State.reset.setPc 4095).pc.toNat ∧ 4095 ≤ (State.reset.setPc 0xFFFF).pc.toNat := by decide

/-- Each line of the fault table at its boundary; the statement says faults and table agree both ways. -/
theorem test_witness_StepFaultsExactlyAsTabled :
    faultOf (step (State.reset.setPc 4095)) = some (.fetchOutOfBounds 4095) ∧
    faultOf (run 0x00E1 State.reset) = some (.unsupportedOpcode 0x00E1) ∧
    faultOf (run 0x2300 (State.reset.setStack State.reset.stack 16)) = some .stackOverflow ∧
    faultOf (run 0x00EE State.reset) = some .stackUnderflow ∧
    faultOf (run 0xD012 (State.reset.setI 4095)) = some (.memOutOfBounds 4096) ∧
    faultOf (run 0xF033 (State.reset.setI 4094)) = some (.memOutOfBounds 4096) ∧
    faultOf (run 0xF055 (State.reset.setI 4096)) = some (.memOutOfBounds 4096) ∧
    faultOf (run 0xF165 (State.reset.setI 4097)) = some (.memOutOfBounds 4097) ∧
    faultOf (run 0xE2A1 (State.reset.setReg 2 16)) = some (.keyIndexOutOfRange 16) := by decide +kernel

theorem test_witness_FaultingTickIsPrecise :
    step (State.reset.setPc 4095) = .fault (.fetchOutOfBounds 4095) ∧
    step (State.reset.withFetchWord 16 0x00EE) = .fault .stackUnderflow := ⟨rfl, rfl⟩

theorem test_witness_StepKeepsTheInvariant : State.reset.Inv ∧ ∃ t, step State.reset = .next t :=
  ⟨⟨by decide, by decide, by decide⟩, _, rfl⟩

/-- A state with a live stack slot at each end of its range and the largest `pc`. -/
theorem test_witness_HostOperationsKeepTheInvariant :
    (((State.reset.setStack ((State.reset.stack.set 0 2).set 1 4096) 2).setPc 4350).storeRun 4095 [1]).Inv :=
  ⟨by decide, by decide, by decide⟩

theorem test_witness_RegistersChangeOnlyWhereNamed :
    Reaches (.ldRegs 14) State.reset (fun _ => True) ∧ (15 : Reg) ∉ destRegs (.ldRegs 14) :=
  ⟨⟨_, rfl, trivial⟩, by decide⟩

theorem test_witness_IndexIsWrittenByThreeInstructionsOnly :
    Reaches (.ldI 5) State.reset (fun t => t.i ≠ State.reset.i) ∧
    Reaches (.addI 1) (State.reset.setReg 1 5) (fun t => t.i ≠ State.reset.i) ∧
    Reaches (.ldF 1) (State.reset.setReg 1 5) (fun t => t.i ≠ State.reset.i) :=
  ⟨⟨_, rfl, by decide⟩, ⟨_, rfl, by decide⟩, ⟨_, rfl, by decide⟩⟩

theorem test_witness_StackIsWrittenByCallAndReturnOnly :
    Reaches (.call 0x300) State.reset (fun t => t.sp ≠ State.reset.sp ∧ t.stack ≠ State.reset.stack) ∧
    Reaches .ret (State.reset.setStack State.reset.stack 1) (fun t => t.sp ≠ 1) :=
  ⟨⟨_, rfl, by decide⟩, ⟨_, rfl, by decide⟩⟩

theorem test_witness_MemoryIsWrittenByBcdAndStoreOnly :
    Reaches (.ldB 0) ((State.reset.setReg 0 7).setI 0x300) (fun t => t.readByte 0x302 ≠ State.reset.readByte 0x302) ∧
    Reaches (.stRegs 0) ((State.reset.setReg 0 7).setI 4095) (fun t => t.readByte 4095 ≠ State.reset.readByte 4095) :=
  ⟨⟨_, rfl, by decide⟩, ⟨_, rfl, by decide⟩⟩

theorem test_witness_DisplayIsWrittenByClearAndDrawOnly :
    Reaches (.drw 0 0 1) State.reset (fun t => t.pixel 0 0 ≠ State.reset.pixel 0 0) ∧
    Reaches .cls (State.reset.setDisplay (draw [0])) (fun t => t.pixel 0 0 ≠ (State.reset.setDisplay (draw [0])).pixel 0 0) :=
  ⟨⟨_, rfl, by decide +kernel⟩, ⟨_, rfl, by decide +kernel⟩⟩

theorem test_witness_TimersAreWrittenByTheirInstructionOnly :
    Reaches (.ldDtVx 5) (State.reset.setReg 5 7) (fun t => t.dt ≠ State.reset.dt) ∧
    Reaches (.ldStVx 5) (State.reset.setReg 5 7) (fun t => t.st ≠ State.reset.st) :=
  ⟨⟨_, rfl, by decide⟩, ⟨_, rfl, by decide⟩⟩

theorem test_witness_OnlyRandomReadsTheDraws :
    (∀ x kk, Instr.cls ≠ .rnd x kk) ∧ Reaches .cls State.reset (fun _ => True) ∧
    (∀ x kk, Instr.ret ≠ .rnd x kk) ∧ exec .ret State.reset = .fault .stackUnderflow :=
  ⟨by simp, ⟨_, rfl, trivial⟩, by simp, rfl⟩

/-- Memory never loaded reads as zero bytes. -/
theorem test_witness_NopOnlyAdvancesPc : State.reset.OpcodeAtPc 0x0000 := ⟨0, 0, by decide⟩

theorem test_witness_CallPushesTheReturnAddress :
    (State.reset.setStack State.reset.stack 15).sp.val < 16 ∧ (State.reset.setStack State.reset.stack 16).sp = 16 := by decide

theorem test_witness_ReturnPopsTheReturnAddress :
    0 < (State.reset.setStack State.reset.stack 1).sp.val ∧ State.reset.sp = 0 := by decide

theorem test_witness_ReturnUndoesCall :
    Reaches (.call 0x300) (State.reset.setStack State.reset.stack 15)
      (fun t => ∃ t' : State, t'.sp = t.sp ∧ t'.stack = t.stack) :=
  ⟨_, rfl, _, rfl, rfl⟩

/-- At the last fetchable address; a register skip that skips, a key skip that does not. -/
theorem test_witness_SkippedWordIsNeverDecoded :
    ((State.reset.setPc 4094).withFetchWord 16 0x3000).OpcodeAtPc 0x3000 ∧ decodeOp 0x3000 = .ok (.seImm 0 0) ∧
    ((State.reset.setPc 4094).withFetchWord 16 0x3000).skipCondition (.seImm 0 0) = some true ∧
    ((State.reset.setReg 2 15).withFetchWord 16 0xE29E).OpcodeAtPc 0xE29E ∧ decodeOp 0xE29E = .ok (.skp 2) ∧
    ((State.reset.setReg 2 15).withFetchWord 16 0xE29E).skipCondition (.skp 2) = some false :=
  ⟨⟨0x30, 0x00, by decide⟩, by decide, by decide, ⟨0xE2, 0x9E, by decide⟩, by decide, by decide⟩

theorem test_witness_SelfJumpLeavesTheStateUnchanged :
    ((State.reset.setPc 4094).withFetchWord 16 0x1FFE).Finished :=
  ⟨0x1FFE, 0xFFE, ⟨0x1F, 0xFE, by decide⟩, by decide, by decide⟩

/-- The hypotheses of the arithmetic and shift statements: `x` is `VF` or is not. -/
theorem test_witness_AddAndSubtract_and_Shifts : (14 : Reg) ≠ VF ∧ (15 : Reg) = VF := by decide

theorem test_witness_BcdStoresThreeDigits :
    (State.reset.setI 4093).mem.wf = true ∧ (State.reset.setI 4093).base + 2 ≤ 4095 ∧
    (State.reset.setI 4094).mem.wf = true ∧ (State.reset.setI 4094).base + 2 > 4095 := by decide

/-- `x = 15`, base 4080 and 4081: the hypotheses of the store and of the load. -/
theorem test_witness_RegisterStoreWritesTheRun_and_RegisterLoadReadsTheRun :
    (State.reset.setI 4080).mem.wf = true ∧ (State.reset.setI 4080).base + (15 : Reg).val ≤ 4095 ∧
    (State.reset.setI 4081).mem.wf = true ∧ (State.reset.setI 4081).base + (15 : Reg).val > 4095 := by decide

theorem test_witness_LoadRestoresStoredRegisters :
    State.reset.mem.wf = true ∧
    Reaches (.stRegs 15) ((regs3 0 7 1 8 15 9).setI 4080) (fun t => ∃ t' : State, t'.mem = t.mem ∧ t'.i = t.i ∧
      Reaches (.ldRegs 15) t' fun _ => True) :=
  ⟨by decide, _, rfl, ((regs3 0 7 1 8 15 9).setI 4080).storeRun 4080 (((regs3 0 7 1 8 15 9).setI 4080).regsTo 15), rfl, rfl,
    _, rfl, trivial⟩

theorem test_witness_StoredBytesAreFetchedNext :
    ((State.reset.setI 4079).setPc 4094).mem.wf = true ∧ (15 : Reg) ≤ 15 ∧ (15 : Reg).val = (14 : Reg).val + 1 ∧
    Reaches (.stRegs 15) ((State.reset.setI 4080).setPc 4094) (fun t => t.pc.toNat =
      ((State.reset.setI 4080).setPc 4094).base + (14 : Reg).val) :=
  ⟨by decide, by decide, by decide, _, rfl, by decide⟩

/-- Two equal canonical memories, built in different orders. -/
theorem test_witness_CanonicalMemoryIsUnique :
    Memory.wf (Memory.put (Memory.put [] 4095 1) 0 2) = true ∧ Memory.wf (Memory.put (Memory.put [] 0 2) 4095 1) = true ∧
    ∀ a, a < memSize → (Memory.put (Memory.put [] 4095 1) 0 2).peek a = (Memory.put (Memory.put [] 0 2) 4095 1).peek a :=
  ⟨by decide, by decide, fun _ _ => rfl⟩

/-- The four clauses: a run that ends at 4095, an empty run at 65535, a collision, no collision; and the fault. -/
theorem test_witness_DrawXorsTheSprite :
    ¬(0 < 1 ∧ (State.reset.setI 4095).base + 1 - 1 > 4095) ∧ ¬(0 < 0 ∧ (State.reset.setI 0xFFFF).base + 0 - 1 > 4095) ∧
    (0 < 1 ∧ (State.reset.setI 4096).base + 1 - 1 > 4095) ∧
    (∃ px py, (State.reset.setDisplay (draw [0])).spriteHits 1 0 0 px py = true ∧
      (State.reset.setDisplay (draw [0])).pixel px py = true) ∧
    (∀ px py, State.reset.spriteHits 15 63 31 px py = true → State.reset.pixel px py = false) :=
  ⟨by decide, by decide, by decide, ⟨0, 0, by decide +kernel⟩, fun px py _ => by simp [State.pixel, State.reset]⟩

theorem test_witness_DrawingTwiceRestoresTheDisplay :
    Reaches (.drw 0 1 5) State.reset (fun t => (∀ a, t.readByte a = State.reset.readByte a) ∧ t.i = State.reset.i ∧
      t.reg 0 = State.reset.reg 0 ∧ t.reg 1 = State.reset.reg 1) :=
  ⟨_, rfl, fun _ => rfl, rfl, by decide +kernel, by decide +kernel⟩

theorem test_witness_KeySkipsReadTheLatch :
    ((State.reset.setReg 2 15).reg 2).toNat = (15 : Fin 16).val ∧ ((State.reset.setReg 2 16).reg 2).toNat > 15 := by decide

/-- Key 15 alone down: every lower key is up; and no key down. -/
theorem test_witness_KeyWaitStoresTheLeastKey :
    (State.reset.setKeys (State.reset.keys.set 15 true)).key 15 = true ∧
    (∀ j : Fin 16, j < 15 → (State.reset.setKeys (State.reset.keys.set 15 true)).key j = false) ∧
    ∀ k : Fin 16, State.reset.key k = false := by decide

theorem test_witness_KeyWaitTickLeavesTheStateUnchanged :
    (State.reset.withFetchWord 16 0xF30A).OpcodeAtPc 0xF30A ∧ decodeOp 0xF30A = .ok (.ldVxK 3) ∧
    ∀ k : Fin 16, (State.reset.withFetchWord 16 0xF30A).key k = false :=
  ⟨⟨0xF3, 0x0A, by decide⟩, by decide, by decide⟩

theorem test_witness_SetKeyWritesOneEntry :
    15 < 16 ∧ 16 > 15 ∧ (∀ k b, HostOp.tick ≠ .setKey k b) ∧ HostOp.tick ≠ .reset := by simp

theorem test_witness_LoadCopiesTheImage :
    State.reset.mem.wf = true ∧ (List.replicate 3584 (1 : Byte)).length ≤ 3584 ∧
    (List.replicate 3585 (1 : Byte)).length > 3584 :=
  ⟨by decide, by rw [List.length_replicate], by rw [List.length_replicate]; decide⟩

theorem test_witness_HostMisuseChangesNothing :
    (applyOp defaultFont (.setKey 16 true) State.reset).reply = .fault (.invalidKeyIndex 16) ∧ HostOp.setKey 16 true ≠ .tick ∧
    (applyOp defaultFont (.load (List.replicate 3585 0)) State.reset).reply = .fault (.imageTooLarge 3585) := by decide +kernel

theorem test_witness_OnlyResetMovesPcBetweenTicks :
    HostOp.reset ≠ .tick ∧ (applyOp defaultFont .reset (State.reset.setPc 0x300)).state.pc ≠ (State.reset.setPc 0x300).pc := by decide

theorem test_witness_TickAnswersOkWithTheNextState : ∃ t, step (State.reset.withFetchWord 16 0x6A7F) = .next t :=
  ⟨_, rfl⟩

end Sys2Proof.Tests
end

section
/-! The count of free draws (log 2) is read by Cxkk alone: overwriting it commutes with every other instruction. -/

namespace Sys2Proof.Machine

/-- The state with the count of free draws overwritten. -/
def State.withDraws (s : State) (n : Nat) : State := { s with draws := n }

/-- An instruction's answer with the count of free draws overwritten in the next state, if there is one. -/
def Result.withDraws (n : Nat) : Result → Result
  | .next t => .next (t.withDraws n)
  | .fault f => .fault f
  | .refused r => .refused r

/-! The shared operations commute with the overwriting when their continuations do. -/

theorem State.skipIf_withDraws (s : State) (n : Nat) (c : Bool) :
    (s.withDraws n).skipIf c = (s.skipIf c).withDraws n := by
  cases c <;> rfl

theorem State.setRegsFrom_withDraws (s : State) (n k : Nat) (bs : List Byte) :
    (s.withDraws n).setRegsFrom k bs = (s.setRegsFrom k bs).withDraws n := by
  induction bs generalizing s k with
  | nil => rfl
  | cons b bs ih =>
    simp only [State.setRegsFrom]
    split
    · next h => exact ih (s.setReg ⟨k, h⟩ b) (k + 1)
    · rfl

theorem guardRun_withDraws (base len n : Nat) {k k' : Result} (hk : k' = Result.withDraws n k) :
    guardRun base len k' = Result.withDraws n (guardRun base len k) := by
  subst hk
  by_cases h : 0 < len ∧ base + len - 1 > 4095
  · simp only [guardRun_fault h, Result.withDraws]
  · simp only [guardRun_ok h]

theorem State.push_withDraws (s : State) (n : Nat) (w : Word) {k : State → Result}
    (hk : ∀ t, k (t.withDraws n) = Result.withDraws n (k t)) :
    (s.withDraws n).push w k = Result.withDraws n (s.push w k) := by
  obtain ⟨h, e⟩ | ⟨h, e⟩ := s.push_cases w k
  · rw [e, State.push_of_lt (s := s.withDraws n) h]
    exact hk (s.setStack _ _)
  · rw [e, State.push_of_full (s := s.withDraws n) h]
    rfl

theorem State.pop_withDraws (s : State) (n : Nat) {k : Word → State → Result}
    (hk : ∀ w t, k w (t.withDraws n) = Result.withDraws n (k w t)) :
    (s.withDraws n).pop k = Result.withDraws n (s.pop k) := by
  obtain ⟨h, e⟩ | ⟨h, e⟩ := s.pop_cases k
  · rw [e, State.pop_of_pos (s := s.withDraws n) h]
    exact hk _ (s.setStack _ _)
  · rw [e, State.pop_of_empty (s := s.withDraws n) h]
    rfl

/-- The key skips: one argument for both senses of the test. -/
theorem State.withKey_skipIf_withDraws (s : State) (n : Nat) (x : Reg) (c : Bool → Bool) :
    (s.withDraws n).withKey x (fun pressed => .next ((s.withDraws n).skipIf (c pressed))) =
      Result.withDraws n (s.withKey x fun pressed => .next (s.skipIf (c pressed))) := by
  simp only [State.skipIf_withDraws]
  obtain ⟨h, e⟩ | ⟨h, e⟩ := s.withKey_cases x fun pressed => .next (s.skipIf (c pressed))
  · rw [e, State.withKey_of_lt (s := s.withDraws n) h]
    rfl
  · rw [e, State.withKey_of_gt (s := s.withDraws n) h]
    rfl

/-- The waiting read of a key looks at the latch only. -/
theorem execLdVxK_withDraws (x : Reg) (s : State) (n : Nat) :
    execLdVxK x (s.withDraws n) = Result.withDraws n (execLdVxK x s) := by
  have hkey : (s.withDraws n).leastKey = s.leastKey := rfl
  simp only [execLdVxK, hkey]
  cases s.leastKey <;> rfl

/-- Every instruction but Cxkk commutes with the overwriting of the count. The cases left to the last line only read and
write fields other than the count, in a straight line. -/
theorem exec_withDraws {i : Instr} (hi : ∀ x kk, i ≠ .rnd x kk) (s : State) (n : Nat) :
    exec i (s.withDraws n) = Result.withDraws n (exec i s) := by
  cases i with
  | rnd x kk => exact absurd rfl (hi x kk)
  | ret => exact s.pop_withDraws n (k := fun target t => .next (t.setPc target)) fun _ _ => rfl
  | call nnn => exact s.push_withDraws n s.pc (k := fun t => .next (t.setPc (zext16 nnn))) fun _ => rfl
  | seImm x kk | sneImm x kk | seReg x y | sneReg x y => exact congrArg _ (s.skipIf_withDraws n _)
  | skp x => exact s.withKey_skipIf_withDraws n x id
  | sknp x => exact s.withKey_skipIf_withDraws n x not
  | ldVxK x => exact execLdVxK_withDraws x s n
  | drw _ _ _ | ldB _ | stRegs _ => exact guardRun_withDraws _ _ n rfl
  | ldRegs x => exact guardRun_withDraws _ _ n (congrArg Host.Outcome.next (s.setRegsFrom_withDraws n 0 _))
  | _ => rfl

/-- Settles O23: overwriting the count of free draws commutes with the instruction. -/
theorem onlyRandomReadsTheDraws : Obligations.OnlyRandomReadsTheDraws := by
  intro i s n hi
  have hcomm : exec i { s with draws := n } = Result.withDraws n (exec i s) := exec_withDraws hi s n
  constructor
  · intro t ht
    rw [hcomm, ht]
    rfl
  · intro f hf
    rw [hcomm, hf]
    rfl

end Sys2Proof.Machine
end

section
/-! What an instruction writes: its registers (`destRegs`) and its parts (`destParts`); all else is unchanged
(00_scope.md R9). The rules speak of one state operation each, and of the next state an answer may hold. -/

namespace Sys2Proof.Machine

/-! What an answer ensures of its next state. -/

/-- Every next state the answer holds satisfies `Q`; a fault and a refusal hold none. -/
def Ensures (Q : State → Prop) : Result → Prop
  | .next t => Q t
  | .fault _ | .refused _ => True

theorem Ensures.of_eq_next {Q : State → Prop} {r : Result} {t : State} (h : Ensures Q r) (e : r = .next t) : Q t := by
  rw [e] at h
  exact h

theorem ensures_guardRun {Q : State → Prop} {base len : Nat} {k : Result}
    (hk : (len = 0 ∨ base + len ≤ memSize) → Ensures Q k) : Ensures Q (guardRun base len k) := by
  cases e : guardRun base len k with
  | next t =>
    obtain ⟨hrun, he⟩ := guardRun_next e
    exact (hk hrun).of_eq_next he
  | fault _ | refused _ => trivial

/-- RET ensures what the popped state with `pc` at the popped word satisfies. -/
theorem ensures_execRet {Q : State → Prop} {s : State}
    (h : ∀ hp : 0 < s.sp.val,
      Q ((s.setStack s.stack ⟨s.sp.val - 1, by omega⟩).setPc (s.stack[s.sp.val - 1]'(by omega)))) :
    Ensures Q (execRet s) := by
  unfold execRet
  obtain ⟨hp, e⟩ | ⟨-, e⟩ := s.pop_cases fun target t => .next (t.setPc target) <;> rw [e]
  · exact h hp
  · trivial

/-- CALL ensures what the pushed state with `pc` at the target satisfies. -/
theorem ensures_execCall {Q : State → Prop} {nnn : Imm12} {s : State}
    (h : ∀ hp : s.sp.val < 16,
      Q ((s.setStack (s.stack.set s.sp.val s.pc) ⟨s.sp.val + 1, by omega⟩).setPc (zext16 nnn))) :
    Ensures Q (execCall nnn s) := by
  unfold execCall
  obtain ⟨hp, e⟩ | ⟨-, e⟩ := s.push_cases s.pc fun t => .next (t.setPc (zext16 nnn)) <;> rw [e]
  · exact h hp
  · trivial

theorem State.ensures_withKey {Q : State → Prop} {s : State} {x : Reg} {k : Bool → Result}
    (hk : ∀ pressed, Ensures Q (k pressed)) : Ensures Q (s.withKey x k) := by
  obtain ⟨h, e⟩ | ⟨-, e⟩ := s.withKey_cases x k <;> rw [e]
  · exact hk _
  · trivial

theorem ensures_execSkp {Q : State → Prop} {x : Reg} {s : State} (h : ∀ c, Q (s.skipIf c)) :
    Ensures Q (execSkp x s) :=
  State.ensures_withKey fun pressed => h pressed

theorem ensures_execSknp {Q : State → Prop} {x : Reg} {s : State} (h : ∀ c, Q (s.skipIf c)) :
    Ensures Q (execSknp x s) :=
  State.ensures_withKey fun pressed => h !pressed

/-- The waiting read of a key writes the register, or puts `pc` back. -/
theorem ensures_execLdVxK {Q : State → Prop} {s : State} {x : Reg} (hkey : ∀ b, Q (s.setReg x b))
    (hwait : Q (s.setPc (s.pc - 2))) : Ensures Q (execLdVxK x s) := by
  unfold execLdVxK
  cases s.leastKey with
  | some k => exact hkey _
  | none => exact hwait

/-! What each state operation keeps. -/

section
variable {regs : List Reg} {parts : List Part}

theorem KeepsAllBut.refl (s : State) : KeepsAllBut regs parts s s :=
  ⟨fun _ _ => rfl, fun p _ => by cases p <;> simp [Part.Same]⟩

/-- A state that agrees in the registers and in every part but one of those named. -/
theorem KeepsAllBut.of_part {p : Part} {s t : State} (hp : p ∈ parts) (hr : ∀ z, t.reg z = s.reg z)
    (h : ∀ q, q ≠ p → q.Same s t) : KeepsAllBut regs parts s t :=
  ⟨fun z _ => hr z, fun q hq => h q (ne_of_mem_of_not_mem hp hq).symm⟩

theorem Part.Same.trans {p : Part} {s t u : State} (h : p.Same s t) (h' : p.Same t u) : p.Same s u := by
  cases p with
  | stack => exact ⟨h'.1.trans h.1, h'.2.trans h.2⟩
  | memory => exact fun a => (h' a).trans (h a)
  | display => exact fun x y => (h' x y).trans (h x y)
  | _ => exact Eq.trans h' h

theorem KeepsAllBut.trans {s t u : State} (h : KeepsAllBut regs parts s t) (h' : KeepsAllBut regs parts t u) :
    KeepsAllBut regs parts s u :=
  ⟨fun z hz => (h'.1 z hz).trans (h.1 z hz), fun p hp => (h.2 p hp).trans (h'.2 p hp)⟩

theorem State.keepsAllBut_setReg (s : State) {x : Reg} (hx : x ∈ regs) (b : Byte) :
    KeepsAllBut regs parts s (s.setReg x b) :=
  ⟨fun _ hz => s.reg_setReg_ne (ne_of_mem_of_not_mem hx hz).symm b, fun p _ => by cases p <;> simp [Part.Same]⟩

theorem State.keepsAllBut_setFlag (s : State) (hx : VF ∈ regs) (b : Byte) : KeepsAllBut regs parts s (s.setFlag b) :=
  s.keepsAllBut_setReg hx b

theorem State.keepsAllBut_setI (s : State) (hp : .index ∈ parts) (w : Word) : KeepsAllBut regs parts s (s.setI w) :=
  .of_part hp (fun _ => rfl) fun p hne => by cases p <;> simp_all [Part.Same]

theorem State.keepsAllBut_setPc (s : State) (hp : .counter ∈ parts) (w : Word) :
    KeepsAllBut regs parts s (s.setPc w) :=
  .of_part hp (fun _ => rfl) fun p hne => by cases p <;> simp_all [Part.Same]

theorem State.keepsAllBut_skipIf (s : State) (hp : .counter ∈ parts) (c : Bool) :
    KeepsAllBut regs parts s (s.skipIf c) := by
  cases c with
  | false => exact .refl s
  | true => exact s.keepsAllBut_setPc hp _

theorem State.keepsAllBut_setStack (s : State) (hp : .stack ∈ parts) (st : Vector Word 16) (n : Fin 17) :
    KeepsAllBut regs parts s (s.setStack st n) :=
  .of_part hp (fun _ => rfl) fun p hne => by cases p <;> simp_all [Part.Same]

theorem State.keepsAllBut_storeRun (s : State) (hp : .memory ∈ parts) (a : Nat) (bs : List Byte) :
    KeepsAllBut regs parts s (s.storeRun a bs) :=
  .of_part hp (fun _ => rfl) fun p hne => by cases p <;> simp_all [Part.Same]

theorem State.keepsAllBut_setDisplay (s : State) (hp : .display ∈ parts) (fb : Vector Bool 2048) :
    KeepsAllBut regs parts s (s.setDisplay fb) :=
  .of_part hp (fun _ => rfl) fun p hne => by cases p <;> simp_all [Part.Same]

theorem State.keepsAllBut_setDt (s : State) (hp : .delay ∈ parts) (b : Byte) : KeepsAllBut regs parts s (s.setDt b) :=
  .of_part hp (fun _ => rfl) fun p hne => by cases p <;> simp_all [Part.Same]

theorem State.keepsAllBut_setSt (s : State) (hp : .sound ∈ parts) (b : Byte) : KeepsAllBut regs parts s (s.setSt b) :=
  .of_part hp (fun _ => rfl) fun p hne => by cases p <;> simp_all [Part.Same]

theorem State.keepsAllBut_nextDraw (s : State) (hp : .draws ∈ parts) : KeepsAllBut regs parts s s.nextDraw :=
  .of_part hp (fun _ => rfl) fun p hne => by cases p <;> simp_all [Part.Same]

/-- Loading bytes into registers keeps all but the registers loaded. -/
theorem State.keepsAllBut_setRegsFrom (s : State) (k : Nat) (bs : List Byte)
    (hr : ∀ z : Reg, k ≤ z.val → z.val < k + bs.length → z ∈ regs) :
    KeepsAllBut regs parts s (s.setRegsFrom k bs) := by
  constructor
  · intro z hz
    rw [State.reg_setRegsFrom, dif_neg fun h => hz (hr z h.1 h.2)]
  · intro p _
    rw [State.setRegsFrom_eq]
    cases p <;> simp [Part.Same, State.readByte, State.pixel]

end

/-! What each instruction keeps. -/

/-- The parts of the state an instruction may write, besides its registers (`destRegs`). -/
def destParts : Instr → List Part
  | .cls | .drw _ _ _ => [.display]
  | .ret | .call _ => [.counter, .stack]
  | .jp _ | .jpV0 _ | .seImm _ _ | .sneImm _ _ | .seReg _ _ | .sneReg _ _ | .skp _ | .sknp _ | .ldVxK _ => [.counter]
  | .ldI _ | .addI _ | .ldF _ => [.index]
  | .ldB _ | .stRegs _ => [.memory]
  | .ldDtVx _ => [.delay]
  | .ldStVx _ => [.sound]
  | .rnd _ _ => [.draws]
  | .nop | .ldImm _ _ | .addImm _ _ | .ldReg _ _ | .orReg _ _ | .andReg _ _ | .xorReg _ _ | .addReg _ _ | .subReg _ _
  | .shr _ | .subn _ _ | .shl _ | .ldVxDt _ | .ldRegs _ => []

/-- Every instruction keeps all but its registers and its parts. -/
theorem exec_ensures_keepsAllBut (i : Instr) (s : State) :
    Ensures (KeepsAllBut (destRegs i) (destParts i) s) (exec i s) := by
  cases i with
  | nop => exact .refl s
  | cls => exact s.keepsAllBut_setDisplay (by simp [destParts]) _
  | ret =>
    exact ensures_execRet fun _ =>
      (s.keepsAllBut_setStack (by simp [destParts]) _ _).trans (State.keepsAllBut_setPc _ (by simp [destParts]) _)
  | call nnn =>
    exact ensures_execCall fun _ =>
      (s.keepsAllBut_setStack (by simp [destParts]) _ _).trans (State.keepsAllBut_setPc _ (by simp [destParts]) _)
  | jp nnn | jpV0 nnn => exact s.keepsAllBut_setPc (by simp [destParts]) _
  | seImm x kk | sneImm x kk | seReg x y | sneReg x y => exact s.keepsAllBut_skipIf (by simp [destParts]) _
  | skp x => exact ensures_execSkp (s.keepsAllBut_skipIf (by simp [destParts]))
  | sknp x => exact ensures_execSknp (s.keepsAllBut_skipIf (by simp [destParts]))
  | ldImm x kk | addImm x kk | ldReg x y | orReg x y | andReg x y | xorReg x y | ldVxDt x =>
    exact s.keepsAllBut_setReg (by simp [destRegs]) _
  | addReg x y | subReg x y | subn x y =>
    exact (s.keepsAllBut_setReg (by simp [destRegs]) _).trans (State.keepsAllBut_setFlag _ (by simp [destRegs]) _)
  | shr x | shl x =>
    exact (s.keepsAllBut_setFlag (by simp [destRegs]) _).trans (State.keepsAllBut_setReg _ (by simp [destRegs]) _)
  | rnd x kk =>
    exact (s.keepsAllBut_setReg (by simp [destRegs]) _).trans (State.keepsAllBut_nextDraw _ (by simp [destParts]))
  | ldI nnn | addI x | ldF x => exact s.keepsAllBut_setI (by simp [destParts]) _
  | drw x y n =>
    exact ensures_guardRun fun _ =>
      (s.keepsAllBut_setDisplay (by simp [destParts]) _).trans (State.keepsAllBut_setFlag _ (by simp [destRegs]) _)
  | ldB x | stRegs x => exact ensures_guardRun fun _ => s.keepsAllBut_storeRun (by simp [destParts]) _ _
  | ldRegs x =>
    refine ensures_guardRun fun _ => s.keepsAllBut_setRegsFrom 0 _ fun z _ hz => ?_
    simp only [State.loadRun_length] at hz
    simp only [destRegs, List.mem_filter, List.mem_finRange, true_and, decide_eq_true_eq, Fin.le_def]
    omega
  | ldVxK x =>
    exact ensures_execLdVxK (fun _ => s.keepsAllBut_setReg (by simp [destRegs]) _)
      (s.keepsAllBut_setPc (by simp [destParts]) _)
  | ldDtVx x => exact s.keepsAllBut_setDt (by simp [destParts]) _
  | ldStVx x => exact s.keepsAllBut_setSt (by simp [destParts]) _

theorem exec_keepsAllBut {i : Instr} {s t : State} (h : exec i s = .next t) :
    KeepsAllBut (destRegs i) (destParts i) s t :=
  (exec_ensures_keepsAllBut i s).of_eq_next h

/-- A part that an instruction changes is one of its parts. -/
theorem mem_destParts_of_changed {i : Instr} {s t : State} (h : exec i s = .next t) {p : Part} (hp : ¬p.Same s t) :
    p ∈ destParts i :=
  by_contra fun hn => hp ((exec_keepsAllBut h).2 p hn)

/-! Which instructions have a part among theirs. -/

theorem index_mem_destParts {i : Instr} :
    .index ∈ destParts i ↔ (∃ nnn, i = .ldI nnn) ∨ (∃ x, i = .addI x) ∨ ∃ x, i = .ldF x := by
  cases i <;> simp [destParts]

theorem stack_mem_destParts {i : Instr} : .stack ∈ destParts i ↔ i = .ret ∨ ∃ nnn, i = .call nnn := by
  cases i <;> simp [destParts]

theorem display_mem_destParts {i : Instr} : .display ∈ destParts i ↔ i = .cls ∨ ∃ x y n, i = .drw x y n := by
  cases i <;> simp [destParts]

theorem delay_mem_destParts {i : Instr} : .delay ∈ destParts i ↔ ∃ x, i = .ldDtVx x := by
  cases i <;> simp [destParts]

theorem sound_mem_destParts {i : Instr} : .sound ∈ destParts i ↔ ∃ x, i = .ldStVx x := by
  cases i <;> simp [destParts]

theorem keys_notMem_destParts (i : Instr) : .keys ∉ destParts i := by
  cases i <;> simp [destParts]

/-! The tick, by the state it leaves. -/

/-- A tick leaves the state as it was or as fetch left it, or it is a step that answers the state it leaves. -/
theorem tick_state_cases (s : State) :
    (tick s).state = s ∨ (s.pc.toNat + 1 ≤ 4095 ∧ (tick s).state = s.setPc (s.pc + 2)) ∨
      step s = .next (tick s).state := by
  by_cases h : s.pc.toNat + 1 ≤ 4095
  · right
    cases he : execute (bigEndian (s.mem.peek s.pc.toNat) (s.mem.peek (s.pc.toNat + 1))) (s.setPc (s.pc + 2)) with
    | next u => exact .inr (by rw [step_of_fetch h, he, tick_of_execute_next h he])
    | fault f => exact .inl ⟨h, by rw [tick_of_execute_fault h he]⟩
    | refused r => exact .inl ⟨h, by simp only [tick, fetch_ok h, he]⟩
  · exact .inl (by rw [tick_of_fetch_fault (by omega)])

/-- Settles O16, by the frame of every instruction. -/
theorem registersChangeOnlyWhereNamed : Obligations.RegistersChangeOnlyWhereNamed :=
  fun _ _ _ h => (exec_keepsAllBut h).1

/-- Settles O17: a changed `I` is a part of the instruction, and three have it. -/
theorem indexIsWrittenByThreeInstructionsOnly : Obligations.IndexIsWrittenByThreeInstructionsOnly :=
  fun _ _ _ h hne => index_mem_destParts.mp (mem_destParts_of_changed h hne)

/-- Settles O18: a changed stack is a part of the instruction, and two have it. -/
theorem stackIsWrittenByCallAndReturnOnly : Obligations.StackIsWrittenByCallAndReturnOnly :=
  fun _ _ _ h hne => stack_mem_destParts.mp (mem_destParts_of_changed h (not_and_or.mpr hne))

/-- Settles O20: a changed display is a part of the instruction, and two have it. -/
theorem displayIsWrittenByClearAndDrawOnly : Obligations.DisplayIsWrittenByClearAndDrawOnly := by
  intro i s t h ⟨x, y, hne⟩
  exact display_mem_destParts.mp (mem_destParts_of_changed h fun hsame => hne (hsame x y))

/-- Settles O21: the latch is no part of any instruction, and a tick that runs none moves `pc` at most. -/
theorem noTickWritesTheKeys : Obligations.NoTickWritesTheKeys := by
  intro s
  obtain h | ⟨-, h⟩ | h := tick_state_cases s
  · rw [h]
  · rw [h, State.setPc_keys]
  · obtain ⟨-, i, -, hi⟩ := step_next h
    exact (exec_keepsAllBut hi).2 .keys (keys_notMem_destParts i)

/-- Settles O22: a changed timer is a part of the instruction, and one has it. -/
theorem timersAreWrittenByTheirInstructionOnly : Obligations.TimersAreWrittenByTheirInstructionOnly :=
  fun _ _ _ h => ⟨fun hne => delay_mem_destParts.mp (mem_destParts_of_changed h hne),
    fun hne => sound_mem_destParts.mp (mem_destParts_of_changed h hne)⟩

end Sys2Proof.Machine
end

section
/-! The invariant (10_state.md R24): a rule for each state operation, then the instructions, the step and the host's
operations. -/

namespace Sys2Proof.Machine

theorem zext16_toNat {w : Nat} (hw : w ≤ 16) (b : BitVec w) : (zext16 b).toNat = b.toNat :=
  BitVec.toNat_setWidth_of_le hw

/-! What each state operation does to the invariant. -/

theorem State.Inv.setPc {s : State} (hs : s.Inv) {w : Word} (hw : w.toNat ≤ 4350) : (s.setPc w).Inv :=
  ⟨hs.memory, hw, hs.returns⟩

/-- A skip from a `pc` that fetch has left. -/
theorem State.Inv.skipIf {s : State} (hs : s.Inv) (hpc : s.pc.toNat ≤ 4096) (c : Bool) : (s.skipIf c).Inv := by
  cases c with
  | false => exact hs
  | true => exact hs.setPc (by bv_omega)

theorem State.Inv.storeRun {s : State} (hs : s.Inv) {a : Nat} {bs : List Byte} (h : a + bs.length ≤ memSize) :
    (s.storeRun a bs).Inv :=
  ⟨Memory.wf_putRun _ _ _ hs.memory h, hs.pcBound, hs.returns⟩

theorem State.Inv.setRegsFrom {s : State} (hs : s.Inv) (k : Nat) (bs : List Byte) : (s.setRegsFrom k bs).Inv := by
  rw [State.setRegsFrom_eq]
  exact ⟨hs.memory, hs.pcBound, hs.returns⟩

/-- A push of a return address. -/
theorem State.Inv.pushed {s : State} (hs : s.Inv) {w : Word} (hw : 2 ≤ w.toNat ∧ w.toNat ≤ 4096)
    (h : s.sp.val < 16) : (s.setStack (s.stack.set s.sp.val w) ⟨s.sp.val + 1, by omega⟩).Inv := by
  refine ⟨hs.memory, hs.pcBound, fun k hk hlive => ?_⟩
  simp only [State.setStack_sp, State.setStack_stack, Vector.getElem_set] at hlive ⊢
  split
  · exact hw
  · exact hs.returns k hk (by omega)

theorem State.Inv.popped {s : State} (hs : s.Inv) : (s.setStack s.stack ⟨s.sp.val - 1, by omega⟩).Inv :=
  ⟨hs.memory, hs.pcBound, fun k hk hlive => hs.returns k hk (Nat.lt_of_lt_of_le hlive (Nat.sub_le _ _))⟩

/-- The state after a fetch, which succeeds only below 4095 and so leaves `pc` from 2 to 4096. -/
theorem State.Inv.fetched {s : State} (hs : s.Inv) (h : s.pc.toNat + 1 ≤ 4095) : (s.setPc (s.pc + 2)).Inv :=
  hs.setPc (by bv_omega)

/-! Instructions and the step. -/

/-- Every instruction run on a state that fetch has left keeps the invariant. The cases left to the last line write
neither memory nor `pc` nor the stack, in a straight line. -/
theorem exec_ensures_inv (i : Instr) {s : State} (hs : s.Inv) (hlow : 2 ≤ s.pc.toNat) (hhigh : s.pc.toNat ≤ 4096) :
    Ensures State.Inv (exec i s) := by
  cases i with
  | ret =>
    refine ensures_execRet fun h => hs.popped.setPc ?_
    have := (hs.returns (s.sp.val - 1) (by omega) (by omega)).2
    omega
  | call nnn =>
    refine ensures_execCall fun h => (hs.pushed ⟨hlow, hhigh⟩ h).setPc ?_
    rw [zext16_toNat (by decide)]
    omega
  | jp nnn =>
    refine hs.setPc ?_
    rw [zext16_toNat (by decide)]
    omega
  | jpV0 nnn =>
    refine hs.setPc ?_
    rw [BitVec.toNat_add, zext16_toNat (by decide), zext16_toNat (by decide)]
    omega
  | seImm x kk | sneImm x kk | seReg x y | sneReg x y => exact hs.skipIf hhigh _
  | skp x => exact ensures_execSkp (hs.skipIf hhigh)
  | sknp x => exact ensures_execSknp (hs.skipIf hhigh)
  | ldVxK x => exact ensures_execLdVxK (fun _ => ⟨hs.memory, hs.pcBound, hs.returns⟩) (hs.setPc (by bv_omega))
  | drw x y n => exact ensures_guardRun fun _ => ⟨hs.memory, hs.pcBound, hs.returns⟩
  | ldB x =>
    have hlen : (bcdDigits (s.reg x)).length = 3 := rfl
    exact ensures_guardRun fun hrun => hs.storeRun (by omega)
  | stRegs x => exact ensures_guardRun fun hrun => hs.storeRun (by rw [State.regsTo_length]; omega)
  | ldRegs x => exact ensures_guardRun fun _ => hs.setRegsFrom 0 _
  | _ => exact ⟨hs.memory, hs.pcBound, hs.returns⟩

/-- Settles O14: the fetch leaves `pc` from 2 to 4096, and every instruction keeps the invariant from there. -/
theorem stepKeepsTheInvariant : Obligations.StepKeepsTheInvariant := by
  intro s t hs h
  obtain ⟨hpc, i, -, hi⟩ := step_next h
  have hlow : 2 ≤ (s.pc + 2).toNat := by bv_omega
  have hhigh : (s.pc + 2).toNat ≤ 4096 := by bv_omega
  exact (exec_ensures_inv i (hs.fetched hpc) hlow hhigh).of_eq_next hi

/-! The host's operations. -/

theorem construct_inv (font : Font) : (construct font).Inv :=
  ⟨construct_mem_wf font, by simp, fun k _ hlive => by simp at hlive⟩

theorem State.Inv.withDraws {s : State} (hs : s.Inv) (n : Nat) : (s.withDraws n).Inv :=
  ⟨hs.memory, hs.pcBound, hs.returns⟩

theorem load_inv (image : List Byte) {s : State} (hs : s.Inv) : (load image s).state.Inv := by
  unfold load
  split
  · exact hs
  · next h =>
    simp only [maxImage] at h
    exact hs.storeRun (by simp only [memSize]; omega)

theorem setKey_inv (index : Nat) (pressed : Bool) {s : State} (hs : s.Inv) : (setKey index pressed s).state.Inv := by
  unfold setKey
  split
  · exact ⟨hs.memory, hs.pcBound, hs.returns⟩
  · exact hs

theorem tick_inv {s : State} (hs : s.Inv) : (tick s).state.Inv := by
  obtain h | ⟨hpc, h⟩ | h := tick_state_cases s
  · rw [h]; exact hs
  · rw [h]; exact hs.fetched hpc
  · exact stepKeepsTheInvariant s _ hs h

theorem applyOp_inv (font : Font) (op : HostOp) {s : State} (hs : s.Inv) : (applyOp font op s).state.Inv := by
  cases op with
  | reset => exact (construct_inv font).withDraws s.draws
  | load image => exact load_inv image hs
  | tick => exact tick_inv hs
  | tickTimers => exact ⟨hs.memory, hs.pcBound, hs.returns⟩
  | setKey index pressed => exact setKey_inv index pressed hs
  | getDisplay | soundShouldPlay => exact hs

/-- Settles O15, by induction on the list of operations. -/
theorem hostOperationsKeepTheInvariant : Obligations.HostOperationsKeepTheInvariant := by
  intro font ops
  induction ops with
  | nil => exact fun _ hs => hs
  | cons op ops ih => exact fun s hs => ih _ (applyOp_inv font op hs)

/-! Reset. -/

/-- Storing the bytes that unlisted addresses read as lists nothing. -/
theorem Memory.putRun_nil_of_resetBytes (bs : List Byte) (a : Nat)
    (h : ∀ k (hk : k < bs.length), bs[k] = resetByte (a + k)) : Memory.putRun [] a bs = [] := by
  induction bs generalizing a with
  | nil => rfl
  | cons b bs ih =>
    have hb : b = resetByte a := h 0 (by simp)
    have hput : Memory.put [] a b = [] := by simp only [Memory.put, Memory.cons, hb, if_true]
    rw [Memory.putRun, hput]
    refine ih (a + 1) fun k hk => ?_
    rw [Nat.add_assoc, Nat.add_comm 1 k]
    exact h (k + 1) (by simpa using hk)

theorem construct_defaultFont : construct defaultFont = State.reset := by
  have hmem : Memory.putRun [] 0 defaultFont.toList = [] := by
    refine Memory.putRun_nil_of_resetBytes _ _ fun k hk => ?_
    have hk' : k < fontTable.length := hk
    simp [defaultFont, resetByte, hk']
  exact congrArg State.reset.setMem hmem

/-- Settles O13: what `construct()` makes meets the invariant, and `State.reset` is one such state. -/
theorem resetSatisfiesTheInvariant : Obligations.ResetSatisfiesTheInvariant :=
  ⟨construct_defaultFont ▸ construct_inv defaultFont, construct_inv⟩

theorem construct_atReset (font : Font) : (construct font).AtReset font where
  registers x := by simp [State.reg]
  index := rfl
  counter := rfl
  stackPointer := rfl
  slots k hk := by simp
  fontBytes a ha := construct_readByte_font font ha
  otherBytes a hlow hhigh := construct_readByte_above font hlow (by simp only [memSize]; omega)
  pixels px py := by simp [State.pixel]
  latch k := by simp [State.key]
  delay := rfl
  sound := rfl

theorem State.AtReset.withDraws {font : Font} {s : State} (h : s.AtReset font) (n : Nat) :
    (s.withDraws n).AtReset font :=
  { h with }

/-- Settles O55: `construct()` gives every part its reset value, and `reset()` differs from it in the count of draws
only. -/
theorem resetRestoresEveryPart : Obligations.ResetRestoresEveryPart :=
  ⟨fun font => ⟨construct_atReset font, rfl⟩,
    fun font s => ⟨(construct font).withDraws s.draws, rfl, (construct_atReset font).withDraws s.draws, rfl⟩,
    construct_defaultFont⟩

end Sys2Proof.Machine
end

section
/-! Memory (spec/20_memory.md): who writes it, that its canonical form is unique (log 24), and that stored bytes are what
the next fetch reads. -/

namespace Sys2Proof.Machine

/-! Who writes memory. -/

theorem memory_mem_destParts {i : Instr} : .memory ∈ destParts i ↔ ∃ x, i = .ldB x ∨ i = .stRegs x := by
  cases i <;> simp [destParts]

/-- Settles O19: a changed memory is a part of the instruction, and two have it. -/
theorem memoryIsWrittenByBcdAndStoreOnly : Obligations.MemoryIsWrittenByBcdAndStoreOnly := by
  intro i s t h ⟨a, hne⟩
  exact memory_mem_destParts.mp (mem_destParts_of_changed h fun hsame => hne (hsame a))

/-! The canonical form. -/

theorem Memory.wfFrom_listed_iff {low a : Nat} {b : Byte} {m : Memory} :
    Memory.wfFrom low ((a, b) :: m) = true ↔ low ≤ a ∧ a < memSize ∧ b ≠ resetByte a ∧ m.wfFrom (a + 1) = true := by
  simp [Memory.wfFrom, and_assoc]

@[simp] theorem Memory.peek_head (a : Nat) (b : Byte) (m : Memory) : Memory.peek ((a, b) :: m) a = b :=
  if_pos rfl

theorem Memory.peek_tail {a c : Nat} (b : Byte) (m : Memory) (h : c ≠ a) : Memory.peek ((a, b) :: m) c = m.peek c :=
  if_neg h

/-- The first listed byte tells a canonical memory from one that lists nothing up to its address. -/
theorem Memory.peek_head_ne {low a : Nat} {b : Byte} {m m' : Memory} (hw : Memory.wfFrom low ((a, b) :: m) = true)
    (hw' : m'.wfFrom (a + 1) = true) : Memory.peek ((a, b) :: m) a ≠ m'.peek a := by
  obtain ⟨-, -, hb, -⟩ := Memory.wfFrom_listed_iff.mp hw
  rw [Memory.peek_head, Memory.peek_below m' hw' (Nat.lt_succ_self a)]
  exact hb

/-- Canonical memories that read alike and list the same address first go on with memories that read alike. -/
theorem Memory.peek_rest_eq {a : Nat} {b b' : Byte} {m m' : Memory} (hw : m.wfFrom (a + 1) = true)
    (hw' : m'.wfFrom (a + 1) = true)
    (h : ∀ c, c < memSize → Memory.peek ((a, b) :: m) c = Memory.peek ((a, b') :: m') c) :
    ∀ c, c < memSize → m.peek c = m'.peek c := by
  intro c hc
  by_cases hca : c = a
  · have hlow : c < a + 1 := by omega
    rw [Memory.peek_below m hw hlow, Memory.peek_below m' hw' hlow]
  · rw [← Memory.peek_tail b m hca, h c hc, Memory.peek_tail b' m' hca]

/-- By induction on the list: were the first listed addresses not the same, the lower one would read differently. -/
theorem Memory.eq_of_peek_eq {low : Nat} {m m' : Memory} (hw : m.wfFrom low = true) (hw' : m'.wfFrom low = true)
    (h : ∀ a, a < memSize → m.peek a = m'.peek a) : m = m' := by
  induction m generalizing low m' with
  | nil =>
    cases m' with
    | nil => rfl
    | cons c' m' =>
      obtain ⟨-, ha', -, -⟩ := Memory.wfFrom_listed_iff.mp hw'
      exact absurd (h _ ha').symm (Memory.peek_head_ne hw' rfl)
  | cons c m ih =>
    obtain ⟨a, b⟩ := c
    obtain ⟨-, ha, hb, hm⟩ := Memory.wfFrom_listed_iff.mp hw
    cases m' with
    | nil => exact absurd (h a ha) (Memory.peek_head_ne hw rfl)
    | cons c' m' =>
      obtain ⟨a', b'⟩ := c'
      obtain ⟨-, ha', hb', hm'⟩ := Memory.wfFrom_listed_iff.mp hw'
      obtain hlt | rfl | hgt := lt_trichotomy a a'
      · exact absurd (h a ha) (Memory.peek_head_ne hw (Memory.wfFrom_listed_iff.mpr ⟨hlt, ha', hb', hm'⟩))
      · have hbb : b = b' := by simpa using h a ha
        rw [hbb, ih hm hm' (Memory.peek_rest_eq hm hm' h)]
      · exact absurd (h a' ha').symm (Memory.peek_head_ne hw' (Memory.wfFrom_listed_iff.mpr ⟨hgt, ha, hb, hm⟩))

/-- Settles O43: canonical memories are listed from address 0 on. -/
theorem canonicalMemoryIsUnique : Obligations.CanonicalMemoryIsUnique :=
  fun _ _ => Memory.eq_of_peek_eq

/-! Stored registers. -/

/-- Fx55 answers a next state only when its run lies in memory, and then it has stored the run. -/
theorem exec_stRegs_next {s t : State} {x : Reg} (h : exec (.stRegs x) s = .next t) :
    s.base + (x.val + 1) ≤ memSize ∧ t = s.storeRun s.base (s.regsTo x) := by
  obtain ⟨hrun, he⟩ := guardRun_next h
  injection he with he
  exact ⟨by omega, he.symm⟩

/-- The run of stored registers in memory reads as the registers. -/
theorem State.peek_storeRun_regsTo {s : State} {x k : Reg} (hw : s.mem.wf = true)
    (hrun : s.base + (x.val + 1) ≤ memSize) (hk : k ≤ x) :
    (s.storeRun s.base (s.regsTo x)).mem.peek (s.base + k.val) = s.reg k := by
  have hlen : (s.regsTo x).length = x.val + 1 := s.regsTo_length x
  have hkx : k.val ≤ x.val := hk
  rw [State.storeRun_mem, Memory.peek_putRun_inside s.mem s.base _ hw (by omega) k.val (by omega)]
  exact s.regsTo_getElem x k hk

/-- Settles O42: the fetch reads memory where the run was stored. -/
theorem storedBytesAreFetchedNext : Obligations.StoredBytesAreFetchedNext := by
  intro s t x k k' hw h hsucc hk' hpc
  obtain ⟨hrun, rfl⟩ := exec_stRegs_next h
  have hkx' : k'.val ≤ x.val := hk'
  have hkx : k ≤ x := Fin.le_def.mpr (by omega)
  have hlow : (s.storeRun s.base (s.regsTo x)).pc.toNat + 1 = s.base + k'.val := by omega
  have hfetch : (s.storeRun s.base (s.regsTo x)).pc.toNat + 1 ≤ 4095 := by simp only [memSize] at hrun; omega
  rw [fetch_ok hfetch, hlow, hpc, State.peek_storeRun_regsTo hw hrun hkx, State.peek_storeRun_regsTo hw hrun hk']
  rfl

end Sys2Proof.Machine
end

section
/-! Encoding (spec/30_encoding.md): decoding undoes encoding (R71), what is decoded fits its word but for the `y` of the
shifts (R68), the illegal words (R65, R66), and the agreement of the decoder with the opcode map (R64). -/

namespace Sys2Proof

/-! More on fields: of packed words, of literal words, and a word packed from its own fields. -/

@[simp] theorem leading_packXYN {t x y n : Nat} (ht : t < 16) (hx : x < 16) (hy : y < 16) (hn : n < 16) :
    bits 15 12 (packXYN t x y n) = t :=
  (packXYN_nibbles ht hx hy hn).1

theorem bits_ofNat (hi lo n : Nat) : bits hi lo (BitVec.ofNat 16 n) = n % 65536 / 2 ^ lo % 2 ^ (hi - lo + 1) := rfl

theorem packXYN_of_fields {op : Word} {t n : Nat} (ht : bits 15 12 op = t) (hn : fieldN op = n) :
    packXYN t (fieldX op).val (fieldY op).val n = op := by
  rw [← ht, ← hn, repack_XYN]

theorem packXKK_of_fields {op : Word} {t kk : Nat} (ht : bits 15 12 op = t) (hkk : bits 7 0 op = kk) :
    packXKK t (fieldX op).val kk = op := by
  rw [← ht, ← hkk, repack_XKK]

theorem packNNN_of_fields {op : Word} {t : Nat} (ht : bits 15 12 op = t) : packNNN t (fieldNNN op).toNat = op := by
  rw [← ht, fieldNNN_toNat, repack_NNN]

/-! Decoding what was encoded. -/

/-- A word packed from four nibbles with the leading nibble 8 is read by its sub-opcode. -/
theorem decodeOp_packXYN_8 (x y : Reg) {n : Nat} (hn : n < 16) :
    decodeOp (packXYN 0x8 x.val y.val n) = decodeGroup8 (packXYN 0x8 x.val y.val n) x y := by
  simp [decodeOp, hn]

/-- SHR is read whatever `y` is. -/
theorem decodeOp_shr (x y : Reg) : decodeOp (packXYN 0x8 x.val y.val 0x6) = .ok (.shr x) := by
  simp [decodeOp_packXYN_8, decodeGroup8]

/-- SHL is read whatever `y` is. -/
theorem decodeOp_shl (x y : Reg) : decodeOp (packXYN 0x8 x.val y.val 0xE) = .ok (.shl x) := by
  simp [decodeOp_packXYN_8, decodeGroup8]

/-- By the format of the instruction: the decoder finds again the fields the word was packed from. -/
theorem decodeOp_encode (i : Instr) (hw : i.wellFormed = true) : decodeOp (encode i) = .ok i := by
  cases i with
  | nop | cls | ret => decide
  | jp nnn | call nnn | ldI nnn | jpV0 nnn => simp [encode, decodeOp, packNNN_fields]
  | seImm x kk | sneImm x kk | ldImm x kk | addImm x kk | rnd x kk =>
    simp [encode, decodeOp, packXKK_fields, fieldKK_packXKK, kk.isLt]
  | ldReg x y | orReg x y | andReg x y | xorReg x y | addReg x y | subReg x y | subn x y =>
    simp [encode, decodeOp_packXYN_8, decodeGroup8]
  | shr x => exact decodeOp_shr x 0
  | shl x => exact decodeOp_shl x 0
  | seReg x y | sneReg x y => simp [encode, decodeOp]
  | drw x y n =>
    have hn : n < 16 := of_decide_eq_true hw
    simp [encode, decodeOp, hn]
  | skp x | sknp x => simp [encode, decodeOp, packXKK_fields, decodeGroupE]
  | ldVxDt x | ldVxK x | ldDtVx x | ldStVx x | addI x | ldF x | ldB x | stRegs x | ldRegs x =>
    simp [encode, decodeOp, packXKK_fields, decodeGroupF]

/-- Settles O2: by the format of the instruction. -/
theorem decodeInvertsEncode : Obligations.DecodeInvertsEncode := decodeOp_encode

/-- Settles O1, by evaluation. -/
theorem writtenOutWordsDecode : Obligations.WrittenOutWordsDecode := by
  unfold Obligations.WrittenOutWordsDecode
  decide

/-! What a decoded word says of its instruction. -/

/-- The bits of an instruction's words that matter: all of them, but for the field `y` of the shifts (R68). -/
def Instr.usedBits : Instr → Word
  | .shr _ | .shl _ => 0xFF0F
  | _ => 0xFFFF

theorem Instr.usedBits_cases (i : Instr) :
    i.usedBits = 0xFFFF ∨ (∃ x, i = .shr x ∨ i = .shl x) ∧ i.usedBits = 0xFF0F := by
  cases i with
  | shr x => exact .inr ⟨⟨x, .inl rfl⟩, rfl⟩
  | shl x => exact .inr ⟨⟨x, .inr rfl⟩, rfl⟩
  | _ => exact .inl rfl

theorem and_FFFF (op : Word) : op &&& 0xFFFF = op := BitVec.and_allOnes

/-- The instruction is well-formed and encodes to the bits of `op` that matter for it. -/
def Instr.FitsWord (i : Instr) (op : Word) : Prop :=
  i.wellFormed = true ∧ encode i = op &&& i.usedBits

theorem Instr.FitsWord.of_all_bits {i : Instr} {op : Word} (hw : i.wellFormed = true) (hu : i.usedBits = 0xFFFF)
    (he : encode i = op) : i.FitsWord op :=
  ⟨hw, by rw [he, hu, and_FFFF]⟩

theorem decodeGroup0_fits {op : Word} {i : Instr} (h : decodeGroup0 op = .ok i) : i.FitsWord op := by
  unfold decodeGroup0 at h
  split_ifs at h with h0 h1 h2 <;> cases h <;> subst op <;> exact .of_all_bits rfl rfl rfl

theorem decodeGroup8_fits {op : Word} {i : Instr} (ht : bits 15 12 op = 0x8)
    (h : decodeGroup8 op (fieldX op) (fieldY op) = .ok i) : i.FitsWord op := by
  unfold decodeGroup8 at h
  split at h
  case h_7 hn | h_9 hn =>
    cases h
    have hclear := clear_y op
    rw [ht, hn] at hclear
    exact ⟨rfl, hclear.symm⟩
  case h_10 => cases h
  all_goals
    next hn =>
    cases h
    exact .of_all_bits rfl rfl (packXYN_of_fields ht hn)

theorem decodeGroupE_fits {op : Word} {i : Instr} (ht : bits 15 12 op = 0xE)
    (h : decodeGroupE op (fieldX op) = .ok i) : i.FitsWord op := by
  simp only [decodeGroupE] at h
  split_ifs at h with hkk hkk <;> cases h <;> exact .of_all_bits rfl rfl (packXKK_of_fields ht hkk)

theorem decodeGroupF_fits {op : Word} {i : Instr} (ht : bits 15 12 op = 0xF)
    (h : decodeGroupF op (fieldX op) = .ok i) : i.FitsWord op := by
  simp only [decodeGroupF] at h
  split_ifs at h with hkk hkk hkk hkk hkk hkk hkk hkk hkk <;> cases h <;>
    exact .of_all_bits rfl rfl (packXKK_of_fields ht hkk)

/-- By the leading nibble: the fields that were read make the word again. -/
theorem decodeOp_fits {op : Word} {i : Instr} (h : decodeOp op = .ok i) : i.FitsWord op := by
  unfold decodeOp at h
  split at h
  case h_1 => exact decodeGroup0_fits h
  case h_2 ht | h_3 ht | h_11 ht | h_12 ht =>
    cases h
    exact .of_all_bits rfl rfl (packNNN_of_fields ht)
  case h_4 ht | h_5 ht | h_7 ht | h_8 ht | h_13 ht =>
    cases h
    exact .of_all_bits rfl rfl (packXKK_of_fields ht (fieldKK_toNat op).symm)
  case h_6 ht | h_10 ht =>
    split_ifs at h with hn
    cases h
    exact .of_all_bits rfl rfl (packXYN_of_fields ht hn)
  case h_9 ht => exact decodeGroup8_fits ht h
  case h_14 ht =>
    cases h
    exact .of_all_bits (decide_eq_true (bits_lt 3 0 op)) rfl (packXYN_of_fields ht rfl)
  case h_15 ht => exact decodeGroupE_fits ht h
  case h_16 ht => exact decodeGroupF_fits ht h
  case h_17 => cases h

/-- Settles O3: the instruction fits its word, and the bits that matter are all or all but `y`. -/
theorem encodeInvertsDecode : Obligations.EncodeInvertsDecode := by
  intro op i h
  obtain ⟨hw, he⟩ := decodeOp_fits h
  obtain hu | ⟨hshift, hu⟩ := i.usedBits_cases
  · exact ⟨hw, .inl (by rw [he, hu, and_FFFF])⟩
  · exact ⟨hw, .inr ⟨hshift, by rw [he, hu]⟩⟩

/-- Settles O5: two words of one instruction agree in the bits that matter for it. -/
theorem onlyShiftsIgnoreAField : Obligations.OnlyShiftsIgnoreAField := by
  refine ⟨fun x y => ⟨decodeOp_shr x y, decodeOp_shl x y⟩, fun op op' i h h' hne => ?_⟩
  obtain ⟨-, he⟩ := decodeOp_fits h
  obtain ⟨-, he'⟩ := decodeOp_fits h'
  have heq : op &&& i.usedBits = op' &&& i.usedBits := he.symm.trans he'
  obtain hu | ⟨hshift, hu⟩ := i.usedBits_cases
  · rw [hu, and_FFFF, and_FFFF] at heq
    exact absurd heq hne
  · exact ⟨hshift, hu ▸ heq⟩

/-! The illegal words. -/

theorem decodeGroup0_error_iff {op : Word} {r : Reject} :
    decodeGroup0 op = .error r ↔ r = .unsupported op ∧ op ≠ 0x0000 ∧ op ≠ 0x00E0 ∧ op ≠ 0x00EE := by
  unfold decodeGroup0
  split_ifs with h0 h1 h2
  · simp [h0]
  · simp [h1]
  · simp [h2]
  · exact ⟨fun h => ⟨(Except.error.inj h).symm, h0, h1, h2⟩, fun h => h.1 ▸ rfl⟩

theorem decodeGroup8_error_iff {op : Word} {x y : Reg} {r : Reject} :
    decodeGroup8 op x y = .error r ↔
      r = .unsupported op ∧ bits 3 0 op ∈ [0x8, 0x9, 0xA, 0xB, 0xC, 0xD, 0xF] := by
  have hn : fieldN op < 16 := bits_lt 3 0 op
  change _ ↔ _ ∧ fieldN op ∈ _
  unfold decodeGroup8
  interval_cases fieldN op <;> simp [@eq_comm _ r]

theorem decodeGroupE_error_iff {op : Word} {x : Reg} {r : Reject} :
    decodeGroupE op x = .error r ↔ r = .unsupported op ∧ bits 7 0 op ∉ [0x9E, 0xA1] := by
  simp only [decodeGroupE]
  split_ifs <;> simp [*, @eq_comm _ r]

theorem decodeGroupF_error_iff {op : Word} {x : Reg} {r : Reject} :
    decodeGroupF op x = .error r ↔
      r = .unsupported op ∧ bits 7 0 op ∉ [0x07, 0x0A, 0x15, 0x18, 0x1E, 0x29, 0x33, 0x55, 0x65] := by
  simp only [decodeGroupF]
  split_ifs <;> simp [*, @eq_comm _ r]

/-- The six groups of illegal words (R66). -/
def IllegalWord (op : Word) : Prop :=
  (bits 15 12 op = 0x0 ∧ op ≠ 0x0000 ∧ op ≠ 0x00E0 ∧ op ≠ 0x00EE) ∨
  (bits 15 12 op = 0x5 ∧ bits 3 0 op ≠ 0) ∨
  (bits 15 12 op = 0x8 ∧ bits 3 0 op ∈ [0x8, 0x9, 0xA, 0xB, 0xC, 0xD, 0xF]) ∨
  (bits 15 12 op = 0x9 ∧ bits 3 0 op ≠ 0) ∨
  (bits 15 12 op = 0xE ∧ bits 7 0 op ∉ [0x9E, 0xA1]) ∨
  (bits 15 12 op = 0xF ∧ bits 7 0 op ∉ [0x07, 0x0A, 0x15, 0x18, 0x1E, 0x29, 0x33, 0x55, 0x65])

/-- The decoder rejects the illegal words alone, each with its raw value (R65). By the leading nibble; the last lines are
for the nibbles that the decoder accepts whatever follows. -/
theorem decodeOp_error_iff {op : Word} {r : Reject} :
    decodeOp op = .error r ↔ r = .unsupported op ∧ IllegalWord op := by
  unfold decodeOp
  split
  case h_1 ht => simp [IllegalWord, ht, decodeGroup0_error_iff]
  case h_6 ht | h_10 ht =>
    by_cases hn : fieldN op = 0
    · simp [IllegalWord, ht, hn, show bits 3 0 op = 0 from hn]
    · simp [IllegalWord, ht, hn, show bits 3 0 op ≠ 0 from hn, @eq_comm _ r]
  case h_9 ht => simp [IllegalWord, ht, decodeGroup8_error_iff]
  case h_15 ht => simp [IllegalWord, ht, decodeGroupE_error_iff]
  case h_16 ht => simp [IllegalWord, ht, decodeGroupF_error_iff]
  case h_17 =>
    have hlt : bits 15 12 op < 16 := bits_lt 15 12 op
    interval_cases bits 15 12 op <;> contradiction
  all_goals
    next ht => simp [IllegalWord, ht]

/-- Settles O6: the groups are those of `IllegalWord`. -/
theorem illegalWordsAreTheListedGroups : Obligations.IllegalWordsAreTheListedGroups :=
  fun _ => decodeOp_error_iff.trans (and_iff_right rfl)

/-! The opcode map. -/

open Laws.EncodesItsRow in
/-- Every well-formed instruction encodes to a word of its row. -/
theorem encode_on_row : ∀ i : Instr, Statement i
  | .nop => nop
  | .cls => cls
  | .ret => ret
  | .jp nnn => jp nnn
  | .call nnn => call nnn
  | .seImm x kk => seImm x kk
  | .sneImm x kk => sneImm x kk
  | .seReg x y => seReg x y
  | .ldImm x kk => ldImm x kk
  | .addImm x kk => addImm x kk
  | .ldReg x y => ldReg x y
  | .orReg x y => orReg x y
  | .andReg x y => andReg x y
  | .xorReg x y => xorReg x y
  | .addReg x y => addReg x y
  | .subReg x y => subReg x y
  | .shr x => shr x
  | .subn x y => subn x y
  | .shl x => shl x
  | .sneReg x y => sneReg x y
  | .ldI nnn => ldI nnn
  | .jpV0 nnn => jpV0 nnn
  | .rnd x kk => rnd x kk
  | .drw x y n => drw x y n
  | .skp x => skp x
  | .sknp x => sknp x
  | .ldVxDt x => ldVxDt x
  | .ldVxK x => ldVxK x
  | .ldDtVx x => ldDtVx x
  | .ldStVx x => ldStVx x
  | .addI x => addI x
  | .ldF x => ldF x
  | .ldB x => ldB x
  | .stRegs x => stRegs x
  | .ldRegs x => ldRegs x

/-- The mask of a row looks only at bits that matter for its instruction. -/
theorem Instr.usedBits_and_mask (i : Instr) : i.usedBits &&& i.row.mask = i.row.mask := by
  have hshift : (0xFF0F : Word) &&& 0xF00F = 0xF00F := by decide
  obtain hu | ⟨⟨x, rfl | rfl⟩, -⟩ := i.usedBits_cases
  · rw [hu, BitVec.and_comm, and_FFFF]
  · exact hshift
  · exact hshift

/-- A word is on the row of an instruction that fits it, since the word it encodes to is. -/
theorem Instr.FitsWord.on_row {i : Instr} {op : Word} (h : i.FitsWord op) : i.row.selects op = true := by
  obtain ⟨hw, he⟩ := h
  have hrow := encode_on_row i hw
  rwa [he, OpcodeRow.selects, BitVec.and_assoc, i.usedBits_and_mask] at hrow

/-- A field that the mask fixes has the value of the pattern. -/
theorem bits_of_selects {r : OpcodeRow} {op : Word} (h : r.selects op = true) (hi lo : Nat)
    (hm : bits hi lo r.mask = 2 ^ (hi - lo + 1) - 1) : bits hi lo op = bits hi lo r.pattern := by
  have hsel : op &&& r.mask = r.pattern := beq_iff_eq.mp h
  rw [← hsel, bits_and, hm, Nat.and_two_pow_sub_one_of_lt_two_pow (bits_lt hi lo op)]

/-- A word on the row of an instruction decodes to an instruction of that row: the mask fixes the fields the decoder
looks at. By the format of the instruction (R62). -/
theorem decodes_of_on_row (i : Instr) {op : Word} (h : i.row.selects op = true) :
    ∃ j, decodeOp op = .ok j ∧ j.row = i.row := by
  have ht : bits 15 12 op = bits 15 12 i.row.pattern := bits_of_selects h 15 12 (by cases i <;> simp [Instr.row, bits])
  cases i with
  | nop | cls | ret =>
    have hop : op = _ := (and_FFFF op).symm.trans (beq_iff_eq.mp h)
    subst hop
    exact ⟨_, rfl, rfl⟩
  | jp nnn | call nnn | ldI nnn | jpV0 nnn | seImm x kk | sneImm x kk | ldImm x kk | addImm x kk | rnd x kk
  | drw x y n =>
    simp [decodeOp, ht, Instr.row, bits_ofNat]
  | seReg x y | sneReg x y | ldReg x y | orReg x y | andReg x y | xorReg x y | addReg x y | subReg x y | subn x y
  | shr x | shl x =>
    have hn : fieldN op = _ := bits_of_selects h 3 0 (by simp [Instr.row, bits])
    simp [decodeOp, decodeGroup8, ht, hn, Instr.row, bits_ofNat]
  | skp x | sknp x | ldVxDt x | ldVxK x | ldDtVx x | ldStVx x | addI x | ldF x | ldB x | stRegs x | ldRegs x =>
    have hkk : bits 7 0 op = _ := bits_of_selects h 7 0 (by simp [Instr.row, bits])
    simp [decodeOp, decodeGroupE, decodeGroupF, ht, hkk, Instr.row, bits_ofNat]

theorem mem_opcodeRows_iff {r : OpcodeRow} : r ∈ opcodeRows ↔ ∃ i : Instr, i.row = r := by
  constructor
  · intro h
    obtain h | h := List.mem_append.mp h <;> exact (List.mem_map.mp h).imp fun _ hi => hi.2
  · rintro ⟨i, rfl⟩
    cases i <;> simp [opcodeRows, sampleInstrsLow, sampleInstrsHigh, Instr.row]

/-- A row of the opcode map selects a word exactly when the word decodes to an instruction of that row. -/
theorem selects_iff_decodes {r : OpcodeRow} (hr : r ∈ opcodeRows) (op : Word) :
    r.selects op = true ↔ ∃ i, decodeOp op = .ok i ∧ i.row = r := by
  obtain ⟨i, rfl⟩ := mem_opcodeRows_iff.mp hr
  constructor
  · exact decodes_of_on_row i
  · rintro ⟨j, hj, hrow⟩
    exact hrow ▸ (decodeOp_fits hj).on_row

/-- The decoder rejects a word, with its raw value, exactly when no row selects it. -/
theorem decodeOp_error_iff_no_row (op : Word) :
    decodeOp op = .error (.unsupported op) ↔ ∀ r ∈ opcodeRows, r.selects op = false := by
  constructor
  · intro he r hr
    by_contra hsel
    obtain ⟨i, hi, -⟩ := (selects_iff_decodes hr op).mp (by simpa using hsel)
    simp [he] at hi
  · intro hno
    cases hd : decodeOp op with
    | ok i =>
      have hsel := (decodeOp_fits hd).on_row
      simp [hno _ (mem_opcodeRows_iff.mpr ⟨i, rfl⟩)] at hsel
    | error r => rw [(decodeOp_error_iff.mp hd).1]

/-- Settles O4: rows that select one word are the row of the one instruction it decodes to. -/
theorem decoderAgreesWithTheOpcodeMap : Obligations.DecoderAgreesWithTheOpcodeMap := by
  refine ⟨fun op r hr r' hr' h h' => ?_, fun op r hr => selects_iff_decodes hr op, decodeOp_error_iff_no_row⟩
  obtain ⟨i, hi, rfl⟩ := (selects_iff_decodes hr op).mp h
  obtain ⟨j, hj, rfl⟩ := (selects_iff_decodes hr' op).mp h'
  rw [Except.ok.inj (hi.symm.trans hj)]

end Sys2Proof

namespace Sys2Proof.Machine

/-! The word at `pc` is the word that is fetched. -/

theorem State.readByte_eq_some_iff {s : State} {a : Nat} {b : Byte} :
    s.readByte a = some b ↔ a < memSize ∧ s.mem.peek a = b := by
  rw [State.readByte, Option.ite_none_right_eq_some, Option.some.injEq]

/-- A word at `pc` lies in memory, and the fetch reads it. -/
theorem State.OpcodeAtPc.fetches {s : State} {op : Word} (h : s.OpcodeAtPc op) :
    s.pc.toNat + 1 ≤ 4095 ∧ bigEndian (s.mem.peek s.pc.toNat) (s.mem.peek (s.pc.toNat + 1)) = op := by
  obtain ⟨hi, lo, hhi, hlo, hop⟩ := h
  obtain ⟨-, hhi⟩ := State.readByte_eq_some_iff.mp hhi
  obtain ⟨hpc, hlo⟩ := State.readByte_eq_some_iff.mp hlo
  refine ⟨by simp only [memSize] at hpc; omega, ?_⟩
  rw [hhi, hlo, bigEndian, ← hop, BitVec.ofNat_toNat, BitVec.setWidth_eq]

/-- Settles O8: the decoder rejects the fetched word. -/
theorem unmappedOpcodeFaults : Obligations.UnmappedOpcodeFaults := by
  intro s op hat hno
  obtain ⟨hpc, hfetch⟩ := hat.fetches
  have hexec := execute_error ((decodeOp_error_iff_no_row op).mpr hno) (s.setPc (s.pc + 2))
  rw [← hfetch] at hexec ⊢
  exact ⟨(step_of_fetch hpc).trans hexec, tick_of_execute_fault hpc hexec⟩

end Sys2Proof.Machine
end

section
/-! The tick and the control transfers (spec/40_tick_and_control.md): a step as its decoded instruction, the jumps, the
call stack and the six skips. -/

namespace Sys2Proof.Machine

/-! The tick. -/

/-- A step runs the instruction that the word at `pc` decodes to (R80 to R82). -/
theorem State.OpcodeAtPc.step_eq_exec {s : State} {op : Word} {i : Instr} (hat : s.OpcodeAtPc op)
    (hd : decodeOp op = .ok i) : step s = exec i (s.setPc (s.pc + 2)) := by
  obtain ⟨hpc, hfetch⟩ := hat.fetches
  rw [step_of_fetch hpc, hfetch, execute_ok hd]

theorem tick_of_step_next {s t : State} (h : step s = .next t) : tick s = ⟨t, .ok⟩ := by
  obtain ⟨hpc, i, hd, hi⟩ := step_next h
  exact tick_of_execute_next hpc ((execute_ok hd _).trans hi)

/-- Settles O7, by the fetch of the word at `pc`. -/
theorem stepRunsTheDecodedInstruction : Obligations.StepRunsTheDecodedInstruction :=
  fun _ _ _ hat hd => hat.step_eq_exec hd

/-- Settles O9: the step and the tick both end at the fetch. -/
theorem fetchBeyondMemoryFaults : Obligations.FetchBeyondMemoryFaults := by
  intro s h
  have hpc : s.pc.toNat + 1 > 4095 := by omega
  exact ⟨step_of_fetch_fault hpc, tick_of_fetch_fault hpc⟩

/-- Settles O59: a step that answers a next state has executed its word to it, and so has the tick. -/
theorem tickAnswersOkWithTheNextState : Obligations.TickAnswersOkWithTheNextState :=
  fun _ _ => ⟨rfl, fun _ h => tick_of_step_next h⟩

/-- Settles O24: the word 0x0000 decodes to NOP, which answers the state it is given. -/
theorem nopOnlyAdvancesPc : Obligations.NopOnlyAdvancesPc :=
  fun _ => ⟨rfl, fun hat => hat.step_eq_exec (decodeOp_encode .nop rfl)⟩

/-! The jumps. -/

/-- Settles O25: zero extension keeps the target. -/
theorem jumpSetsPc : Obligations.JumpSetsPc :=
  fun s nnn => ⟨_, rfl, zext16_toNat (by decide) nnn, s.keepsAllBut_setPc (by decide) _⟩

/-- Settles O26: 255 + 4095 fits in 16 bits, so the sum does not wrap. -/
theorem indexedJumpAddsV0 : Obligations.IndexedJumpAddsV0 := by
  intro s nnn
  have hsum : (zext16 (s.reg 0) + zext16 nnn).toNat = (s.reg 0).toNat + nnn.toNat := by
    rw [BitVec.toNat_add, zext16_toNat (by decide), zext16_toNat (by decide)]
    omega
  exact ⟨_, rfl, hsum, s.keepsAllBut_setPc (by decide) _⟩

/-! The call stack. -/

section
variable {s : State}

theorem exec_call_of_lt (h : s.sp.val < 16) (nnn : Imm12) : exec (.call nnn) s =
    .next ((s.setStack (s.stack.set s.sp.val s.pc) ⟨s.sp.val + 1, by omega⟩).setPc (zext16 nnn)) := by
  simp only [exec, execCall, State.push_of_lt h]

theorem exec_call_of_full (h : s.sp = 16) (nnn : Imm12) : exec (.call nnn) s = .fault .stackOverflow := by
  simp only [exec, execCall, State.push_of_full h]

theorem exec_ret_of_pos (h : 0 < s.sp.val) : exec .ret s =
    .next ((s.setStack s.stack ⟨s.sp.val - 1, by omega⟩).setPc (s.stack[s.sp.val - 1]'(by omega))) := by
  simp only [exec, execRet, State.pop_of_pos h]

theorem exec_ret_of_empty (h : s.sp = 0) : exec .ret s = .fault .stackUnderflow := by
  simp only [exec, execRet, State.pop_of_empty h]

end

/-- What CALL and RET do to the state keeps all but `pc` and the stack. -/
theorem State.keepsAllBut_setStack_setPc (s : State) (st : Vector Word 16) (n : Fin 17) (w : Word) :
    KeepsAllBut [] [.counter, .stack] s ((s.setStack st n).setPc w) :=
  (s.keepsAllBut_setStack (by decide) st n).trans (State.keepsAllBut_setPc _ (by decide) w)

/-- Settles O27: a push with a free slot writes that slot alone, and with none it overflows. -/
theorem callPushesTheReturnAddress : Obligations.CallPushesTheReturnAddress := by
  intro s nnn
  refine ⟨fun h => ⟨_, exec_call_of_lt h nnn, ?top, ?others, rfl, zext16_toNat (by decide) nnn,
    s.keepsAllBut_setStack_setPc _ _ _⟩, fun h => exec_call_of_full h nnn⟩
  case top => exact Vector.getElem_set_self h
  case others => exact fun k hk hne => Vector.getElem_set_ne h hk hne.symm

/-- Settles O28: a pop with a live slot keeps the slots, and with none it underflows. -/
theorem returnPopsTheReturnAddress : Obligations.ReturnPopsTheReturnAddress :=
  fun s => ⟨fun h => ⟨_, exec_ret_of_pos h, rfl, rfl, rfl, s.keepsAllBut_setStack_setPc _ _ _⟩, exec_ret_of_empty⟩

/-- A CALL that completes leaves one more live slot, which holds the return address. -/
theorem exec_call_next {s t : State} {nnn : Imm12} (h : exec (.call nnn) s = .next t) :
    t.sp.val = s.sp.val + 1 ∧ t.stack[s.sp.val]? = some s.pc :=
  (ensures_execCall (Q := fun t => t.sp.val = s.sp.val + 1 ∧ t.stack[s.sp.val]? = some s.pc)
    fun hp => ⟨rfl, by simp [hp]⟩).of_eq_next h

/-- Settles O29: the top slot after the CALL is the one that the RET reads. -/
theorem returnUndoesCall : Obligations.ReturnUndoesCall := by
  intro s t t' nnn hcall hsp hstack
  obtain ⟨htsp, htop⟩ := exec_call_next hcall
  rw [← hsp] at htsp
  rw [← hstack] at htop
  obtain ⟨u, hret, hpc, husp, -, -⟩ := (returnPopsTheReturnAddress t').1 (by omega)
  have hslot : t'.sp.val - 1 = s.sp.val := by omega
  refine ⟨u, hret, ?_, Fin.ext (husp.trans hslot)⟩
  rw [hpc]
  apply Option.some.inj
  rw [← htop, ← hslot, Vector.getElem?_eq_getElem]

/-! The skips. -/

/-- An instruction with a skip condition skips if it holds, and does nothing else. -/
theorem exec_of_skipCondition {s : State} {i : Instr} {c : Bool} (h : s.skipCondition i = some c) :
    exec i s = .next (s.skipIf c) := by
  cases i with
  | seImm x kk | seReg x y =>
    obtain rfl := Option.some.inj h
    rfl
  | sneImm x kk | sneReg x y =>
    obtain rfl := Option.some.inj h
    simp only [ne_eq, decide_not]
    rfl
  | skp x =>
    obtain ⟨hx, rfl⟩ := Vector.getElem?_eq_some_iff.mp h
    simp only [exec, execSkp, State.withKey_of_lt hx, State.key]
  | sknp x =>
    obtain ⟨pressed, hp, rfl⟩ := Option.map_eq_some_iff.mp h
    obtain ⟨hx, rfl⟩ := Vector.getElem?_eq_some_iff.mp hp
    simp only [exec, execSknp, State.withKey_of_lt hx, State.key]
  | _ => cases h

/-- No skip condition reads `pc`, so it is the same before and after the fetch. -/
theorem State.skipCondition_setPc (s : State) (w : Word) (i : Instr) :
    (s.setPc w).skipCondition i = s.skipCondition i := by
  cases i <;> rfl

/-- A skip adds 2 to `pc` when its condition holds, and keeps all else. -/
theorem exec_skip_adds_two {s : State} {i : Instr} {P : Prop} [Decidable P]
    (h : s.skipCondition i = some (decide P)) :
    ∃ t, exec i s = .next t ∧ t.pc = (if P then s.pc + 2 else s.pc) ∧ KeepsAllBut [] [.counter] s t :=
  ⟨_, exec_of_skipCondition h, by simp, s.keepsAllBut_skipIf (by decide) _⟩

/-- Settles O30: the skip conditions of the four register skips are the ones stated. -/
theorem registerSkipsAddTwo : Obligations.RegisterSkipsAddTwo :=
  fun _ _ _ _ =>
    ⟨exec_skip_adds_two rfl, exec_skip_adds_two rfl, exec_skip_adds_two rfl, exec_skip_adds_two rfl⟩

/-- After a fetch in memory the two additions of 2 do not wrap. -/
theorem State.skipIf_fetched_pc_toNat {s : State} (hpc : s.pc.toNat + 1 ≤ 4095) (c : Bool) :
    ((s.setPc (s.pc + 2)).skipIf c).pc.toNat = s.pc.toNat + (if c = true then 4 else 2) := by
  cases c with
  | false => exact BitVec.toNat_add_of_lt (by simp; omega)
  | true =>
    show (s.pc + 2 + 2).toNat = s.pc.toNat + 4
    bv_omega

/-- Settles O31: the step of a skip moves `pc` alone, and a skip at 4094 moves it out of memory. -/
theorem skippedWordIsNeverDecoded : Obligations.SkippedWordIsNeverDecoded := by
  intro s op i c hat hd hc
  have hexec := exec_of_skipCondition ((s.skipCondition_setPc (s.pc + 2) i).trans hc)
  have hpc := State.skipIf_fetched_pc_toNat hat.fetches.1 c
  refine ⟨_, (hat.step_eq_exec hd).trans hexec, hpc, ?frame, fun hlast => step_of_fetch_fault ?beyond⟩
  case frame => exact (s.keepsAllBut_setPc (by decide) _).trans (State.keepsAllBut_skipIf _ (by decide) c)
  case beyond =>
    have hnat : s.pc.toNat = 4094 := by rw [hlast]; rfl
    rw [hpc, hnat]
    cases c <;> decide

end Sys2Proof.Machine
end

section
/-! Register loads, arithmetic, logic, shifts and random (spec/41_alu.md): the flag values as numbers, and the registers
after the two orders in which a result and its flag are written. -/

namespace Sys2Proof.Machine

/-! The flag values as numbers. -/

theorem flagOf_decide_toNat (P : Prop) [Decidable P] : (flagOf (decide P)).toNat = if P then 1 else 0 := by
  by_cases h : P <;> simp [flagOf, h]

theorem carryFlag_toNat (a b : Byte) : (carryFlag a b).toNat = if a.toNat + b.toNat > 255 then 1 else 0 :=
  flagOf_decide_toNat _

theorem noBorrowFlag_toNat (a b : Byte) : (noBorrowFlag a b).toNat = if a.toNat ≥ b.toNat then 1 else 0 :=
  flagOf_decide_toNat _

theorem lowBitFlag_toNat (a : Byte) : (lowBitFlag a).toNat = a.toNat % 2 := by
  rw [lowBitFlag, BitVec.toNat_and]
  exact Nat.and_one_is_mod _

/-- Above bit 7 a byte has no bit, so the mask of R112 drops none. -/
theorem highBitFlag_toNat (a : Byte) : (highBitFlag a).toNat = a.toNat / 128 := by
  have hmask : (highBitFlag a).toNat = (a >>> 7).toNat % 2 := lowBitFlag_toNat (a >>> 7)
  rw [hmask, BitVec.toNat_ushiftRight, Nat.shiftRight_eq_div_pow]
  omega

/-! Results as numbers. -/

/-- A difference of bytes is the difference of the numbers modulo 256. -/
theorem toNat_sub_eq_emod (a b : Byte) : ((a - b).toNat : Int) = (a.toNat - b.toNat : Int) % 256 := by
  rw [BitVec.toNat_sub]
  omega

theorem toNat_shiftRight_one (a : Byte) : (a >>> 1).toNat = a.toNat / 2 := by
  rw [BitVec.toNat_ushiftRight, Nat.shiftRight_eq_div_pow]

theorem toNat_shiftLeft_one (a : Byte) : (a <<< 1).toNat = a.toNat * 2 % 256 := by
  rw [BitVec.toNat_shiftLeft, Nat.shiftLeft_eq]

/-! A register and the flag written one after the other (R101, decision D7). -/

section
variable (s : State) {x : Reg} (b f : Byte)

/-- The flag written last leaves another register its result. -/
theorem State.reg_setFlag_setReg (hx : x ≠ VF) : ((s.setReg x b).setFlag f).reg x = b := by
  rw [State.reg_setFlag_ne _ hx, State.reg_setReg_same]

/-- A result written last to another register leaves the flag. -/
theorem State.reg_VF_setReg_setFlag (hx : x ≠ VF) : ((s.setFlag f).setReg x b).reg VF = f := by
  rw [State.reg_setReg_ne _ hx.symm, State.reg_setFlag_same]

end

/-! The obligations of the family. -/

/-- Settles O33: each of the six is one write of its destination. -/
theorem loadsAddImmediateAndLogic : Obligations.LoadsAddImmediateAndLogic := by
  intro s x y kk
  refine ⟨⟨_, rfl, ?ldImm, exec_keepsAllBut (i := .ldImm x kk) rfl⟩,
    ⟨_, rfl, ?addImm, exec_keepsAllBut (i := .addImm x kk) rfl⟩,
    ⟨_, rfl, ?ldReg, exec_keepsAllBut (i := .ldReg x y) rfl⟩,
    ⟨_, rfl, ?or, exec_keepsAllBut (i := .orReg x y) rfl⟩,
    ⟨_, rfl, ?and, exec_keepsAllBut (i := .andReg x y) rfl⟩,
    ⟨_, rfl, ?xor, exec_keepsAllBut (i := .xorReg x y) rfl⟩⟩
  case ldImm | ldReg => exact State.reg_setReg_same _ _ _
  case addImm => rw [State.reg_setReg_same, BitVec.toNat_add]
  case or => rw [State.reg_setReg_same, BitVec.toNat_or]
  case and => rw [State.reg_setReg_same, BitVec.toNat_and]
  case xor => rw [State.reg_setReg_same, BitVec.toNat_xor]

/-- Settles O34: the flag is written last, so it stays in `VF`, and the result stays in any other destination. -/
theorem addAndSubtractSetCarryAndBorrow : Obligations.AddAndSubtractSetCarryAndBorrow := by
  intro s x y
  refine ⟨⟨_, rfl, fun hx => ?sum, ?carry, exec_keepsAllBut (i := .addReg x y) rfl⟩,
    ⟨_, rfl, fun hx => ?difference, ?noBorrow, exec_keepsAllBut (i := .subReg x y) rfl⟩,
    ⟨_, rfl, fun hx => ?reversed, ?noBorrowReversed, exec_keepsAllBut (i := .subn x y) rfl⟩⟩
  case sum => rw [State.reg_setFlag_setReg _ _ _ hx, BitVec.toNat_add]
  case difference | reversed => rw [State.reg_setFlag_setReg _ _ _ hx, toNat_sub_eq_emod]
  case carry => rw [State.reg_setFlag_same, carryFlag_toNat]
  case noBorrow | noBorrowReversed => rw [State.reg_setFlag_same, noBorrowFlag_toNat]

/-- Settles O35: the shift is written last, of `V[x]` as it was, or of the flag itself when `x = 15`. -/
theorem shiftsMoveOneBitIntoTheFlag : Obligations.ShiftsMoveOneBitIntoTheFlag := by
  intro s x
  refine ⟨⟨_, rfl, fun hx => ⟨?right, ?low⟩, ?rightVF, exec_keepsAllBut (i := .shr x) rfl⟩,
    ⟨_, rfl, fun hx => ⟨?left, ?high⟩, ?leftVF, exec_keepsAllBut (i := .shl x) rfl⟩⟩
  case right => rw [State.reg_setReg_same, State.reg_setFlag_ne _ hx, toNat_shiftRight_one]
  case low => rw [State.reg_VF_setReg_setFlag _ _ _ hx, lowBitFlag_toNat]
  case left => rw [State.reg_setReg_same, State.reg_setFlag_ne _ hx, toNat_shiftLeft_one]
  case high => rw [State.reg_VF_setReg_setFlag _ _ _ hx, highBitFlag_toNat]
  case rightVF =>
    rintro rfl
    rw [State.reg_setReg_same, State.reg_setFlag_same, toNat_shiftRight_one, lowBitFlag_toNat]
    omega
  case leftVF =>
    rintro rfl
    rw [State.reg_setReg_same, State.reg_setFlag_same, toNat_shiftLeft_one, highBitFlag_toNat]
    omega

/-- Settles O36: the one register write holds the masked draw, and the complement of the mask meets none of it. -/
theorem randomIsADrawUnderTheMask : Obligations.RandomIsADrawUnderTheMask := by
  intro s x kk
  have hreg : ((s.setReg x (Config.randomByte s.draws &&& kk)).nextDraw).reg x = Config.randomByte s.draws &&& kk := by
    rw [State.reg_nextDraw, State.reg_setReg_same]
  refine ⟨_, rfl, hreg, ?masked, rfl, exec_keepsAllBut (i := .rnd x kk) rfl⟩
  case masked =>
    rw [hreg, BitVec.and_assoc, BitVec.and_not_self]
    exact BitVec.and_zero

end Sys2Proof.Machine
end

section
/-! The index register and its runs of memory (spec/42_index_memory.md): the new values of `I`, and what Fx33, Fx55 and
Fx65 write when their run of addresses lies in memory. -/

namespace Sys2Proof.Machine

/-- Settles O37: each of the three writes `I` alone, and five times a byte fits in 16 bits. -/
theorem indexRegisterResults : Obligations.IndexRegisterResults := by
  intro s x nnn
  refine ⟨⟨_, rfl, zext16_toNat (by decide) nnn, s.keepsAllBut_setI (by decide) _⟩,
    ⟨_, rfl, ?sum, s.keepsAllBut_setI (by decide) _⟩, ⟨_, rfl, ?glyph, s.keepsAllBut_setI (by decide) _⟩⟩
  case sum => rw [State.setI_i, BitVec.toNat_add, zext16_toNat (by decide)]
  case glyph =>
    have hbyte := (s.reg x).isLt
    have hfive : (5 : Word).toNat = 5 := rfl
    rw [State.setI_i, BitVec.toNat_mul, zext16_toNat (by decide), hfive]
    omega

/-! The guard on a run whose last address is `base + n`. -/

section
variable {base n : Nat}

theorem guardRun_of_last_le (h : base + n ≤ 4095) (k : Result) : guardRun base (n + 1) k = k :=
  guardRun_ok (by omega) k

theorem guardRun_of_last_gt (h : base + n > 4095) (k : Result) :
    guardRun base (n + 1) k = .fault (.memOutOfBounds (max base 4096)) :=
  guardRun_fault (by omega) k

end

/-! The stores. -/

theorem State.keepsMemoryOutside_storeRun (s : State) (base : Nat) (bs : List Byte) :
    KeepsMemoryOutside base bs.length s (s.storeRun base bs) :=
  fun a ha => s.readByte_storeRun_outside base bs a ha

@[simp] theorem bcdDigits_length (b : Byte) : (bcdDigits b).length = 3 := rfl

/-- No digit of a byte overflows the byte that holds it. -/
theorem bcdDigits_toNat (b : Byte) : (bcdDigits b)[0].toNat = b.toNat / 100 ∧
    (bcdDigits b)[1].toNat = b.toNat / 10 % 10 ∧ (bcdDigits b)[2].toNat = b.toNat % 10 := by
  have := b.isLt
  simp only [bcdDigits, List.getElem_cons_zero, List.getElem_cons_succ, BitVec.toNat_ofNat]
  omega

/-- Settles O38: the three bytes stored are the digits, and the run of three is guarded. -/
theorem bcdStoresThreeDigits : Obligations.BcdStoresThreeDigits := by
  intro s x hw
  refine ⟨fun hle => ?stored, fun hgt => guardRun_of_last_gt hgt _⟩
  case stored =>
    have hread := s.readByte_storeRun_inside s.base (bcdDigits (s.reg x)) hw (Nat.add_le_add_right hle 1)
    obtain ⟨hhundreds, htens, hones⟩ := bcdDigits_toNat (s.reg x)
    exact ⟨_, _, _, _, guardRun_of_last_le hle _, hread 0 (by simp), hread 1 (by simp), hread 2 (by simp),
      hhundreds, htens, hones, s.keepsMemoryOutside_storeRun s.base (bcdDigits (s.reg x)),
      s.keepsAllBut_storeRun (by decide) _ _⟩

/-- Settles O39: the run stored is the registers, and its `x + 1` addresses are guarded. -/
theorem registerStoreWritesTheRun : Obligations.RegisterStoreWritesTheRun := by
  intro s x hw
  refine ⟨fun hle => ⟨_, guardRun_of_last_le hle _, fun k hk => ?read, ?outside, s.keepsAllBut_storeRun (by decide) _ _⟩,
    fun hgt => guardRun_of_last_gt hgt _⟩
  case read =>
    have hrun : s.base + (x.val + 1) ≤ memSize := Nat.add_le_add_right hle 1
    have hkx : k.val ≤ x.val := hk
    rw [State.readByte_of_lt _ (by omega), State.peek_storeRun_regsTo hw hrun hk]
  case outside =>
    rw [← s.regsTo_length x]
    exact s.keepsMemoryOutside_storeRun _ _

/-! The load. -/

/-- A register loaded from a run holds the byte at its own place in the run. -/
theorem State.reg_setRegsFrom_loadRun (s : State) {base len : Nat} {k : Reg} (hk : k.val < len) :
    (s.setRegsFrom 0 (s.loadRun base len)).reg k = s.mem.peek (base + k.val) := by
  rw [State.reg_setRegsFrom, dif_pos (by rw [State.loadRun_length]; omega)]
  exact s.loadRun_getElem base len k.val hk

/-- Fx65 names the registers up to `x` and no other. -/
theorem mem_destRegs_ldRegs {x k : Reg} : k ∈ destRegs (.ldRegs x) ↔ k ≤ x := by
  simp [destRegs]

/-- Settles O40: a register up to `x` holds its byte of the run, and what the instruction does not name it keeps. -/
theorem registerLoadReadsTheRun : Obligations.RegisterLoadReadsTheRun := by
  intro s x
  refine ⟨fun hle => ?loaded, fun hgt => guardRun_of_last_gt hgt _⟩
  case loaded =>
    have hexec : exec (.ldRegs x) s = .next (s.setRegsFrom 0 (s.loadRun s.base (x.val + 1))) :=
      guardRun_of_last_le hle _
    obtain ⟨hregs, hparts⟩ := exec_keepsAllBut hexec
    refine ⟨_, hexec, fun k hk => ?read, fun k hk => hregs k fun hmem => ?above,
      fun p => hparts p List.not_mem_nil⟩
    case read =>
      have hkx : k.val ≤ x.val := hk
      rw [State.reg_setRegsFrom_loadRun s (by omega), State.readByte_of_lt s (by simp only [memSize]; omega)]
    case above => exact not_le.mpr hk (mem_destRegs_ldRegs.mp hmem)

/-- Settles O41: the load reads, at each address of the run, the byte that the store wrote there. -/
theorem loadRestoresStoredRegisters : Obligations.LoadRestoresStoredRegisters := by
  intro s t t' u x hw hstore hmem hi hload k hk
  obtain ⟨hrun, rfl⟩ := exec_stRegs_next hstore
  obtain ⟨-, hu⟩ := guardRun_next hload
  injection hu with hu
  have hbase : t'.base = s.base := congrArg BitVec.toNat hi
  rw [← hu, State.reg_setRegsFrom_loadRun t' (Nat.lt_succ_of_le hk), hmem, hbase]
  exact State.peek_storeRun_regsTo hw hrun hk

end Sys2Proof.Machine
end

section
/-! The display (spec/43_display.md): what a completed sprite draw leaves in each pixel and in `VF`, and that the sprite
drawn depends on the bytes of its run alone. -/

namespace Sys2Proof.Machine

/-- Settles O44: the one write of CLS is the display, and no pixel of it is set. -/
theorem clearEmptiesTheDisplay : Obligations.ClearEmptiesTheDisplay := by
  intro s
  refine ⟨_, rfl, fun px py => ?cleared, exec_keepsAllBut (i := .cls) rfl⟩
  case cleared => simp only [State.pixel, State.setDisplay_fb, Vector.getElem_replicate]

/-! The sprite draw as an operation on the state. -/

/-- The display with the sprite of the `n` bytes from `I` up drawn at column `x0` and row `y0`, and whether a pixel went
from set to unset. -/
def State.spriteCanvas (s : State) (n x0 y0 : Nat) : Canvas :=
  Canvas.drawRows ⟨s.fb, false⟩ (s.loadRun s.base n) x0 y0

/-- The state after that draw, `VF` written last (R136). -/
def State.drawSprite (s : State) (n x0 y0 : Nat) : State :=
  (s.setDisplay (s.spriteCanvas n x0 y0).fb).setFlag (collisionFlag (s.spriteCanvas n x0 y0).collision)

section
variable {s t : State} {x y : Reg} {n : Nat}

theorem exec_drw_of_run (h : ¬(0 < n ∧ s.base + n - 1 > 4095)) :
    exec (.drw x y n) s = .next (s.drawSprite n (s.reg x).toNat (s.reg y).toNat) :=
  guardRun_ok h _

/-- A sprite draw answers a next state only when its run lies in memory. -/
theorem exec_drw_next (h : exec (.drw x y n) s = .next t) :
    ¬(0 < n ∧ s.base + n - 1 > 4095) ∧ t = s.drawSprite n (s.reg x).toNat (s.reg y).toNat := by
  obtain ⟨hrun, ht⟩ := guardRun_next h
  injection ht with ht
  exact ⟨by simp only [memSize] at hrun; omega, ht.symm⟩

end

/-! What the draw leaves in the pixels and in `VF`. -/

theorem collisionFlag_eq_one_iff {c : Bool} : collisionFlag c = 1 ↔ c = true := by
  cases c <;> decide

theorem collisionFlag_eq_zero_iff {c : Bool} : collisionFlag c = 0 ↔ c = false := by
  cases c <;> decide

section
variable (s : State) {n : Nat} (x0 y0 : Nat)

/-- At most 15 rows are drawn, so no two of them fall on one pixel. -/
theorem State.spriteCanvas_spec (hn : n < 16) :
    (∀ i : Fin 2048, (s.spriteCanvas n x0 y0).fb[i.val] = (s.fb[i.val] ^^ rowsHit (s.loadRun s.base n) x0 y0 i)) ∧
    ((s.spriteCanvas n x0 y0).collision = true ↔
      ∃ i : Fin 2048, rowsHit (s.loadRun s.base n) x0 y0 i = true ∧ s.fb[i.val] = true) :=
  (Canvas.drawRows_spec _ x0 y0 ⟨s.fb, false⟩ (by rw [State.loadRun_length]; omega)).imp_right fun hcollision =>
    hcollision.trans (or_iff_right Bool.false_ne_true)

/-- Each pixel is XORed with the sprite's bit for it. -/
theorem State.pixel_drawSprite (hn : n < 16) (px : Fin 64) (py : Fin 32) :
    (s.drawSprite n x0 y0).pixel px py = (s.pixel px py ^^ s.spriteHits n x0 y0 px py) := by
  rw [State.spriteHits_eq_rowsHit]
  exact (s.spriteCanvas_spec x0 y0 hn).1 (pixelIndex px.val py.val)

/-- A collision is a 1 bit of the sprite on a set pixel. -/
theorem State.spriteCanvas_collision_iff (hn : n < 16) :
    (s.spriteCanvas n x0 y0).collision = true ↔
      ∃ px py, s.spriteHits n x0 y0 px py = true ∧ s.pixel px py = true := by
  rw [(s.spriteCanvas_spec x0 y0 hn).2]
  simp only [State.spriteHits_eq_rowsHit]
  constructor
  · rintro ⟨i, hhit, hset⟩
    obtain ⟨px, py, rfl⟩ := exists_pixelIndex i
    exact ⟨px, py, hhit, hset⟩
  · rintro ⟨px, py, hhit, hset⟩
    exact ⟨_, hhit, hset⟩

/-- `VF` ends 1 exactly on a collision. -/
theorem State.reg_VF_drawSprite_eq_one_iff (hn : n < 16) :
    (s.drawSprite n x0 y0).reg VF = 1 ↔ ∃ px py, s.spriteHits n x0 y0 px py = true ∧ s.pixel px py = true := by
  rw [State.drawSprite, State.reg_setFlag_same, collisionFlag_eq_one_iff, s.spriteCanvas_collision_iff x0 y0 hn]

/-- `VF` ends 0 exactly when the sprite falls on unset pixels only. -/
theorem State.reg_VF_drawSprite_eq_zero_iff (hn : n < 16) :
    (s.drawSprite n x0 y0).reg VF = 0 ↔ ∀ px py, s.spriteHits n x0 y0 px py = true → s.pixel px py = false := by
  rw [State.drawSprite, State.reg_setFlag_same, collisionFlag_eq_zero_iff, ← Bool.not_eq_true,
    s.spriteCanvas_collision_iff x0 y0 hn]
  simp only [not_exists, not_and, Bool.not_eq_true]

theorem State.reg_VF_drawSprite_eq_one_or_zero :
    (s.drawSprite n x0 y0).reg VF = 1 ∨ (s.drawSprite n x0 y0).reg VF = 0 := by
  rw [State.drawSprite, State.reg_setFlag_same, collisionFlag_eq_one_iff, collisionFlag_eq_zero_iff]
  exact Bool.eq_false_or_eq_true _

end

/-- Settles O45: the draw is guarded by its run, and it leaves the XORed pixels and the flag of `drawSprite`. -/
theorem drawXorsTheSprite : Obligations.DrawXorsTheSprite := by
  intro s x y n hn
  refine ⟨fun hrun => ?drawn, fun hout => guardRun_fault hout _⟩
  case drawn =>
    exact ⟨_, exec_drw_of_run hrun, s.pixel_drawSprite _ _ hn, (s.reg_VF_drawSprite_eq_one_iff _ _ hn).mpr,
      (s.reg_VF_drawSprite_eq_zero_iff _ _ hn).mpr, exec_keepsAllBut (exec_drw_of_run hrun)⟩

/-! The same sprite drawn again. -/

/-- Two states with the same memory and `I` hold the same sprite, when its run lies in memory. -/
theorem State.spriteHits_congr {s t : State} {n : Nat} (hrun : ¬(0 < n ∧ s.base + n - 1 > 4095))
    (hmem : ∀ a, t.readByte a = s.readByte a) (hbase : t.base = s.base) (x0 y0 : Nat) (px : Fin 64) (py : Fin 32) :
    t.spriteHits n x0 y0 px py = s.spriteHits n x0 y0 px py := by
  have hload : t.loadRun s.base n = s.loadRun s.base n := by
    refine List.map_congr_left fun k hk => ?_
    have hlt : s.base + k < memSize := by
      have := List.mem_range.mp hk
      simp only [memSize]
      omega
    have hbyte := hmem (s.base + k)
    rw [State.readByte_of_lt t hlt, State.readByte_of_lt s hlt] at hbyte
    exact Option.some.inj hbyte
  rw [State.spriteHits_eq_rowsHit, State.spriteHits_eq_rowsHit, hbase, hload]

/-- Where a bit is XORed in, it meets a set bit the second time exactly if the first time turned the bit on. -/
theorem hit_and_xor_iff (p hit : Bool) : (hit = true ∧ (p ^^ hit) = true) ↔ ((p ^^ hit) = true ∧ p = false) := by
  cases p <;> cases hit <;> decide

/-- Settles O46: both draws XOR the same bits, so each pixel is back, and the second meets the pixels the first set. -/
theorem drawingTwiceRestoresTheDisplay : Obligations.DrawingTwiceRestoresTheDisplay := by
  intro s t t' x y n hn hdraw hpixels hmem hi hx hy
  obtain ⟨hrun, rfl⟩ := exec_drw_next hdraw
  have hbase : t'.base = s.base := congrArg BitVec.toNat hi
  have hredraw : exec (.drw x y n) t' = .next (t'.drawSprite n (s.reg x).toNat (s.reg y).toNat) := by
    rw [exec_drw_of_run (by rw [hbase]; exact hrun), hx, hy]
  have hhits := State.spriteHits_congr hrun hmem hbase (s.reg x).toNat (s.reg y).toNat
  refine ⟨_, hredraw, fun px py => ?restored, ?collision, t'.reg_VF_drawSprite_eq_one_or_zero _ _⟩
  case restored =>
    rw [t'.pixel_drawSprite _ _ hn, hpixels, hhits, s.pixel_drawSprite _ _ hn, Bool.xor_assoc, Bool.xor_self,
      Bool.xor_false]
  case collision =>
    rw [t'.reg_VF_drawSprite_eq_one_iff _ _ hn]
    refine exists_congr fun px => exists_congr fun py => ?_
    rw [hpixels, hhits, s.pixel_drawSprite _ _ hn]
    exact hit_and_xor_iff _ _

end Sys2Proof.Machine
end

section
/-! The timer and keypad instructions (spec/44_timer_key.md): the key skips by the latch entry that `V[x]` names, the
waiting read of a key, and the timer moves. -/

namespace Sys2Proof.Machine

/-! The waiting read of a key, by the least pressed key. -/

section
variable {s : State} (x : Reg)

theorem exec_ldVxK_of_some {k : Nat} (h : s.leastKey = some k) :
    exec (.ldVxK x) s = .next (s.setReg x (BitVec.ofNat 8 k)) := by
  simp only [exec, execLdVxK, h]

theorem exec_ldVxK_of_none (h : s.leastKey = none) : exec (.ldVxK x) s = .next (s.setPc (s.pc - 2)) := by
  simp only [exec, execLdVxK, h]

end

/-- Putting `pc` back by 2 undoes the advance of the fetch. -/
theorem State.setPc_advance_setPc_back (s : State) :
    (s.setPc (s.pc + 2)).setPc ((s.setPc (s.pc + 2)).pc - 2) = s :=
  congrArg s.setPc (BitVec.add_sub_cancel s.pc 2)

/-- Settles O49: the fetch keeps the latch, so the wait puts `pc` back to where the fetch took it from. -/
theorem keyWaitTickLeavesTheStateUnchanged : Obligations.KeyWaitTickLeavesTheStateUnchanged := by
  intro s op x hat hd hnone
  have hfetched : (s.setPc (s.pc + 2)).leastKey = none := State.leastKey_eq_none.mpr hnone
  rw [hat.step_eq_exec hd, exec_ldVxK_of_none x hfetched, s.setPc_advance_setPc_back]

/-- Settles O48: the least pressed key is the one that the scan of the latch answers, and its index fits in a byte. -/
theorem keyWaitStoresTheLeastKey : Obligations.KeyWaitStoresTheLeastKey := by
  intro s x
  refine ⟨fun k hk hleast => ?pressed, fun hnone => ?waiting⟩
  case pressed =>
    have hscan : s.leastKey = some k.val := State.leastKey_eq_some.mpr ⟨k.isLt, hk, hleast⟩
    refine ⟨_, exec_ldVxK_of_some x hscan, ?stored, s.keepsAllBut_setReg (List.mem_singleton_self x) _⟩
    rw [State.reg_setReg_same]
    exact (BitVec.toNat_ofNat _ _).trans (Nat.mod_eq_of_lt (by omega))
  case waiting =>
    exact ⟨_, exec_ldVxK_of_none x (State.leastKey_eq_none.mpr hnone), rfl, s.keepsAllBut_setPc (by decide) _⟩

/-! The key skips. -/

section
variable {s : State} {x : Reg} {k : Fin 16}

/-- The latch entry that a register names is that of the key of its value (R151). -/
theorem State.keys_getElem?_reg (hk : (s.reg x).toNat = k.val) : s.keys[(s.reg x).toNat]? = some (s.key k) := by
  rw [hk]
  exact Vector.getElem?_eq_getElem k.isLt

theorem State.skipCondition_skp (hk : (s.reg x).toNat = k.val) :
    s.skipCondition (.skp x) = some (decide (s.key k = true)) := by
  rw [State.skipCondition, State.keys_getElem?_reg hk, Bool.decide_eq_true]

theorem State.skipCondition_sknp (hk : (s.reg x).toNat = k.val) :
    s.skipCondition (.sknp x) = some (decide (s.key k = false)) := by
  rw [State.skipCondition, State.keys_getElem?_reg hk, Bool.decide_eq_false, Option.map_some]

theorem exec_skp_of_gt (h : (s.reg x).toNat > 15) : exec (.skp x) s = .fault (.keyIndexOutOfRange (s.reg x)) := by
  simp only [exec, execSkp, State.withKey_of_gt h]

theorem exec_sknp_of_gt (h : (s.reg x).toNat > 15) : exec (.sknp x) s = .fault (.keyIndexOutOfRange (s.reg x)) := by
  simp only [exec, execSknp, State.withKey_of_gt h]

end

/-- Settles O47: the skip condition is the latch entry or its negation, and above 15 there is no entry. -/
theorem keySkipsReadTheLatch : Obligations.KeySkipsReadTheLatch :=
  fun _ _ => ⟨fun _ hk =>
      ⟨exec_skip_adds_two (State.skipCondition_skp hk), exec_skip_adds_two (State.skipCondition_sknp hk)⟩,
    fun hgt => ⟨exec_skp_of_gt hgt, exec_sknp_of_gt hgt⟩⟩

/-! The timer moves. -/

/-- The sound plays exactly while the sound timer is not 0. -/
theorem soundShouldPlay_iff {s : State} : soundShouldPlay s = true ↔ s.st ≠ 0 := by
  rw [soundShouldPlay, decide_eq_true_eq, gt_iff_lt, Nat.pos_iff_ne_zero]
  exact BitVec.toNat_ne_iff_ne (y := 0)

/-- Settles O50: each move is one write, and what is written to `ST` decides whether the sound plays. -/
theorem timerMoves : Obligations.TimerMoves :=
  fun s x => ⟨⟨_, rfl, s.reg_setReg_same x s.dt, s.keepsAllBut_setReg (List.mem_singleton_self x) _⟩,
    ⟨_, rfl, rfl, s.keepsAllBut_setDt (by decide) _⟩,
    ⟨_, rfl, rfl, soundShouldPlay_iff, s.keepsAllBut_setSt (by decide) _⟩⟩

end Sys2Proof.Machine
end

section
/-! The fault table (spec/60_exceptions.md R161, R164): the one fault condition of each instruction, the fault of a step by
the word at `pc`, and what a faulting tick leaves. -/

namespace Sys2Proof.Machine

/-! The fault of each shared operation, when its continuation raises none. -/

section
variable {s : State} {x : Reg} {f : Fault}

theorem guardRun_fault_iff {base len : Nat} {t : State} : guardRun base len (.next t) = .fault f ↔
    (0 < len ∧ base + len - 1 > 4095) ∧ f = .memOutOfBounds (max base 4096) := by
  by_cases h : 0 < len ∧ base + len - 1 > 4095
  · simp only [guardRun_fault h, h, and_self, true_and, Host.Outcome.fault.injEq, eq_comm]
  · simp only [guardRun_ok h, h, false_and, reduceCtorEq]

theorem State.push_fault_iff {w : Word} {g : State → State} :
    (s.push w fun t => .next (g t)) = .fault f ↔ s.sp = 16 ∧ f = .stackOverflow := by
  obtain ⟨hlt, e⟩ | ⟨hfull, e⟩ := s.push_cases w fun t => .next (g t)
  · have hne : s.sp ≠ 16 := fun hsp => by simp [hsp] at hlt
    simp only [e, hne, false_and, reduceCtorEq]
  · simp only [e, hfull, true_and, Host.Outcome.fault.injEq, eq_comm]

theorem State.pop_fault_iff {g : Word → State → State} :
    (s.pop fun w t => .next (g w t)) = .fault f ↔ s.sp = 0 ∧ f = .stackUnderflow := by
  obtain ⟨hpos, e⟩ | ⟨hempty, e⟩ := s.pop_cases fun w t => .next (g w t)
  · have hne : s.sp ≠ 0 := fun hsp => by simp [hsp] at hpos
    simp only [e, hne, false_and, reduceCtorEq]
  · simp only [e, hempty, true_and, Host.Outcome.fault.injEq, eq_comm]

theorem State.withKey_fault_iff {g : Bool → State} :
    (s.withKey x fun pressed => .next (g pressed)) = .fault f ↔
      (s.reg x).toNat > 15 ∧ f = .keyIndexOutOfRange (s.reg x) := by
  obtain ⟨hlt, e⟩ | ⟨hgt, e⟩ := s.withKey_cases x fun pressed => .next (g pressed)
  · have hle : ¬(s.reg x).toNat > 15 := by omega
    simp only [e, hle, false_and, reduceCtorEq]
  · simp only [e, hgt, true_and, Host.Outcome.fault.injEq, eq_comm]

/-- The waiting read of a key never faults. -/
theorem execLdVxK_ne_fault : execLdVxK x s ≠ .fault f := by
  unfold execLdVxK
  cases s.leastKey <;> simp only [ne_eq, reduceCtorEq, not_false_eq_true]

end

/-! The fault of an instruction. -/

/-- The condition under which an instruction, run on `s`, ends in fault `f`: its line of the fault table (R161). -/
def State.InstrFaultsWith (s : State) (f : Fault) : Instr → Prop
  | .call _ => s.sp = 16 ∧ f = .stackOverflow
  | .ret => s.sp = 0 ∧ f = .stackUnderflow
  | .drw _ _ n => (0 < n ∧ s.i.toNat + n - 1 > 4095) ∧ f = .memOutOfBounds (max s.i.toNat 4096)
  | .ldB _ => s.i.toNat + 2 > 4095 ∧ f = .memOutOfBounds (max s.i.toNat 4096)
  | .stRegs x | .ldRegs x => s.i.toNat + x.val > 4095 ∧ f = .memOutOfBounds (max s.i.toNat 4096)
  | .skp x | .sknp x => (s.reg x).toNat > 15 ∧ f = .keyIndexOutOfRange (s.reg x)
  | _ => False

/-- No fault condition reads `pc`, so it is the same before and after the fetch. -/
theorem State.instrFaultsWith_setPc (s : State) (w : Word) (f : Fault) (i : Instr) :
    (s.setPc w).InstrFaultsWith f i ↔ s.InstrFaultsWith f i := by
  cases i <;> rfl

theorem exec_fault_iff {i : Instr} {s : State} {f : Fault} : exec i s = .fault f ↔ s.InstrFaultsWith f i := by
  cases i with
  | call nnn => exact State.push_fault_iff (g := fun t => t.setPc (zext16 nnn))
  | ret => exact State.pop_fault_iff (g := fun target t => t.setPc target)
  | drw x y n => exact guardRun_fault_iff
  | ldB x => exact guardRun_fault_iff.trans (and_congr_left' (and_iff_right (by decide)))
  | stRegs x | ldRegs x => exact guardRun_fault_iff.trans (and_congr_left' (and_iff_right (Nat.succ_pos _)))
  | skp x => exact State.withKey_fault_iff (g := s.skipIf)
  | sknp x => exact State.withKey_fault_iff (g := fun pressed => s.skipIf !pressed)
  | ldVxK x => exact iff_of_false execLdVxK_ne_fault id
  | _ => exact iff_of_false nofun id

/-! The fault of a step. -/

theorem execute_fault_iff {op : Word} {s : State} {f : Fault} : execute op s = .fault f ↔
    ((∀ r ∈ opcodeRows, r.selects op = false) ∧ f = .unsupportedOpcode op) ∨
      ∃ i, decodeOp op = .ok i ∧ s.InstrFaultsWith f i := by
  rw [← decodeOp_error_iff_no_row]
  cases hd : decodeOp op with
  | ok i =>
    simp only [execute_ok hd, exec_fault_iff, reduceCtorEq, false_and, false_or, Except.ok.injEq, exists_eq_left']
  | error r =>
    obtain ⟨rfl, -⟩ := decodeOp_error_iff.mp hd
    simp only [execute_error hd, true_and, Host.Outcome.fault.injEq, eq_comm, reduceCtorEq, false_and, exists_false,
      or_false]

theorem bigEndian_toNat (hi lo : Byte) : (bigEndian hi lo).toNat = hi.toNat * 256 + lo.toNat := by
  have hhi := hi.isLt
  have hlo := lo.isLt
  exact (BitVec.toNat_ofNat _ _).trans (Nat.mod_eq_of_lt (by omega))

/-- With the fetch in memory, the word it reads is the word at `pc`. -/
theorem State.opcodeAtPc_of_fetch {s : State} (h : s.pc.toNat + 1 ≤ 4095) :
    s.OpcodeAtPc (bigEndian (s.mem.peek s.pc.toNat) (s.mem.peek (s.pc.toNat + 1))) :=
  ⟨_, _, s.readByte_of_lt (by simp only [memSize]; omega), s.readByte_of_lt (by simp only [memSize]; omega),
    bigEndian_toNat _ _⟩

/-- A step faults at the fetch, or where it executes the word at `pc`. -/
theorem step_fault_iff {s : State} {f : Fault} : step s = .fault f ↔
    (s.pc.toNat + 1 > 4095 ∧ f = .fetchOutOfBounds s.pc) ∨
      ∃ op, s.OpcodeAtPc op ∧ execute op (s.setPc (s.pc + 2)) = .fault f := by
  constructor
  · intro h
    by_cases hpc : s.pc.toNat + 1 > 4095
    · rw [step_of_fetch_fault hpc] at h
      exact .inl ⟨hpc, (Host.Outcome.fault.inj h).symm⟩
    · have hpc : s.pc.toNat + 1 ≤ 4095 := by omega
      exact .inr ⟨_, s.opcodeAtPc_of_fetch hpc, (step_of_fetch hpc).symm.trans h⟩
  · rintro (⟨hpc, rfl⟩ | ⟨op, hat, hexec⟩)
    · exact step_of_fetch_fault hpc
    · obtain ⟨hpc, rfl⟩ := hat.fetches
      exact (step_of_fetch hpc).trans hexec

/-- The fault table, its lines for a word that decodes read as the one fault condition of its instruction. -/
theorem State.faultsWith_iff {s : State} {f : Fault} : s.FaultsWith f ↔
    (s.pc.toNat + 1 > 4095 ∧ f = .fetchOutOfBounds s.pc) ∨
      ∃ op, s.OpcodeAtPc op ∧ (((∀ r ∈ opcodeRows, r.selects op = false) ∧ f = .unsupportedOpcode op) ∨
        ∃ i, decodeOp op = .ok i ∧ s.InstrFaultsWith f i) := by
  refine or_congr_right (exists_congr fun op => and_congr_right' (or_congr_right ⟨?instruction, ?line⟩))
  case instruction =>
    rintro (⟨nnn, hd, hf⟩ | ⟨hd, hf⟩ | ⟨hf, hrun⟩ | ⟨x, hd | hd, hf⟩)
    · exact ⟨_, hd, hf⟩
    · exact ⟨_, hd, hf⟩
    · obtain ⟨x, y, n, hd, hlast⟩ | ⟨x, hd, hlast⟩ | ⟨x, hd, hlast⟩ | ⟨x, hd, hlast⟩ := hrun <;>
        exact ⟨_, hd, hlast, hf⟩
    · exact ⟨_, hd, hf⟩
    · exact ⟨_, hd, hf⟩
  case line =>
    rintro ⟨i, hd, hf⟩
    cases i with
    | call nnn => exact .inl ⟨nnn, hd, hf⟩
    | ret => exact .inr (.inl ⟨hd, hf⟩)
    | drw x y n => exact .inr (.inr (.inl ⟨hf.2, .inl ⟨x, y, n, hd, hf.1⟩⟩))
    | ldB x => exact .inr (.inr (.inl ⟨hf.2, .inr (.inl ⟨x, hd, hf.1⟩)⟩))
    | stRegs x => exact .inr (.inr (.inl ⟨hf.2, .inr (.inr (.inl ⟨x, hd, hf.1⟩))⟩))
    | ldRegs x => exact .inr (.inr (.inl ⟨hf.2, .inr (.inr (.inr ⟨x, hd, hf.1⟩))⟩))
    | skp x => exact .inr (.inr (.inr ⟨x, .inl hd, hf⟩))
    | sknp x => exact .inr (.inr (.inr ⟨x, .inr hd, hf⟩))
    | _ => exact hf.elim

/-- Settles O10: a step faults at the fetch, or where it executes the word at `pc`, which has no row or is an instruction
that meets its fault condition. -/
theorem stepFaultsExactlyAsTabled : Obligations.StepFaultsExactlyAsTabled := by
  intro s f
  simp only [step_fault_iff, execute_fault_iff, State.instrFaultsWith_setPc, State.faultsWith_iff]

/-! What a faulting tick leaves. -/

/-- Only the fetch raises `FetchOutOfBounds`. -/
theorem execute_ne_fetchOutOfBounds {op w : Word} {s : State} : execute op s ≠ .fault (.fetchOutOfBounds w) := by
  rw [ne_eq, execute_fault_iff]
  rintro (⟨-, hf⟩ | ⟨i, -, hf⟩)
  · cases hf
  · cases i <;> simp [State.InstrFaultsWith] at hf

/-- Settles O12: the fetch changes nothing when it faults, and a fault after it leaves the state as fetch left it. -/
theorem faultingTickIsPrecise : Obligations.FaultingTickIsPrecise := by
  intro s f h
  obtain ⟨hpc, rfl⟩ | ⟨op, hat, hexec⟩ := step_fault_iff.mp h
  · rw [tick_of_fetch_fault hpc]
    exact ⟨rfl, .inl ⟨rfl, rfl⟩⟩
  · obtain ⟨hpc, rfl⟩ := hat.fetches
    rw [tick_of_execute_fault hpc hexec]
    exact ⟨rfl, .inr ⟨fun w hf => execute_ne_fetchOutOfBounds (hf ▸ hexec), rfl⟩⟩

end Sys2Proof.Machine
end

section
/-! The host's operations (spec/60_exceptions.md R160 to R174): what each of them answers, and what those that are
neither `tick` nor `reset` leave unchanged. -/

namespace Sys2Proof.Machine

/-! `set_key` and `load`, by the bound on their argument. -/

section
variable {s : State}

theorem setKey_of_lt {index : Nat} (h : index < 16) (pressed : Bool) :
    setKey index pressed s = ⟨s.setKeys (s.keys.set index pressed), .ok⟩ := by
  simp only [setKey, h, dite_true]

theorem setKey_of_gt {index : Nat} (h : index > 15) (pressed : Bool) :
    setKey index pressed s = ⟨s, .fault (.invalidKeyIndex index)⟩ := by
  simp only [setKey, show ¬index < 16 by omega, dite_false]

theorem load_of_le {image : List Byte} (h : image.length ≤ 3584) : load image s = ⟨s.storeRun 512 image, .ok⟩ :=
  if_neg (Nat.not_lt.mpr h)

theorem load_of_gt {image : List Byte} (h : image.length > 3584) :
    load image s = ⟨s, .fault (.imageTooLarge image.length)⟩ :=
  if_pos h

end

/-! What they leave unchanged. -/

theorem State.keepsAllBut_setKeys {regs : List Reg} {parts : List Part} (s : State) (hp : .keys ∈ parts)
    (keys : Vector Bool 16) : KeepsAllBut regs parts s (s.setKeys keys) :=
  .of_part hp (fun _ => rfl) fun p hne => by cases p <;> simp_all [Part.Same]

theorem setKey_keepsAllBut (index : Nat) (pressed : Bool) (s : State) :
    KeepsAllBut [] [.keys] s (setKey index pressed s).state := by
  by_cases h : index < 16
  · rw [setKey_of_lt h]
    exact s.keepsAllBut_setKeys (by decide) _
  · rw [setKey_of_gt (by omega)]
    exact .refl s

theorem load_keepsAllBut (image : List Byte) (s : State) : KeepsAllBut [] [.memory] s (load image s).state := by
  by_cases h : image.length ≤ 3584
  · rw [load_of_le h]
    exact s.keepsAllBut_storeRun (by decide) _ _
  · rw [load_of_gt (by omega)]
    exact .refl s

theorem tickTimers_keepsAllBut (s : State) : KeepsAllBut [] [.delay, .sound] s (tickTimers s).state :=
  (s.keepsAllBut_setDt (by decide) _).trans (State.keepsAllBut_setSt _ (by decide) _)

/-- Settles O57: `set_key` and `load` fault above their bounds, and no other operation but `tick` answers a fault. -/
theorem hostMisuseChangesNothing : Obligations.HostMisuseChangesNothing := by
  intro font op s f hf htick
  cases op with
  | tick => exact absurd rfl htick
  | reset | tickTimers | getDisplay | soundShouldPlay => cases hf
  | setKey index pressed =>
    simp only [applyOp] at hf ⊢
    by_cases h : index < 16
    · rw [setKey_of_lt h] at hf
      cases hf
    · have hgt : index > 15 := by omega
      rw [setKey_of_gt hgt] at hf ⊢
      exact ⟨rfl, .inl ⟨_, _, rfl, hgt, (Reply.fault.inj hf).symm⟩⟩
  | load image =>
    simp only [applyOp] at hf ⊢
    by_cases h : image.length ≤ 3584
    · rw [load_of_le h] at hf
      cases hf
    · have hgt : image.length > 3584 := by omega
      rw [load_of_gt hgt] at hf ⊢
      exact ⟨rfl, .inr ⟨_, rfl, hgt, (Reply.fault.inj hf).symm⟩⟩

/-- Settles O58: `pc` is outside the parts that the operations other than `tick` and `reset` may change. -/
theorem onlyResetMovesPcBetweenTicks : Obligations.OnlyResetMovesPcBetweenTicks := by
  intro font op s htick hne
  cases op with
  | reset => rfl
  | tick => exact absurd rfl htick
  | load image => exact absurd ((load_keepsAllBut image s).2 .counter (by decide)) hne
  | setKey index pressed => exact absurd ((setKey_keepsAllBut index pressed s).2 .counter (by decide)) hne
  | tickTimers | getDisplay | soundShouldPlay => exact absurd rfl hne

/-- Settles O53: one entry is replaced below 16, nothing above, and the latch is outside the parts of the others. -/
theorem setKeyWritesOneEntry : Obligations.SetKeyWritesOneEntry := by
  intro font s index pressed
  refine ⟨fun h => ⟨_, setKey_of_lt h pressed, ?entry, ?others, s.keepsAllBut_setKeys (by decide) _⟩,
    fun h => setKey_of_gt h pressed, fun op hset hreset => ?latch⟩
  case entry => exact Vector.getElem_set_self h
  case others => exact fun k hk => Vector.getElem_set_ne h k.isLt hk.symm
  case latch =>
    cases op with
    | reset => exact absurd rfl hreset
    | setKey k b => exact absurd rfl (hset k b)
    | load image => exact (load_keepsAllBut image s).2 .keys (by decide)
    | tick => exact noTickWritesTheKeys s
    | tickTimers | getDisplay | soundShouldPlay => rfl

/-! The timers. -/

theorem decay_toNat (b : Byte) : (decay b).toNat = b.toNat - 1 := by
  unfold decay
  split
  · bv_omega
  · omega

/-- The answer of `tick_timers()`, `tone_stop`. -/
theorem tickTimers_reply (s : State) : (tickTimers s).reply = .okFlag (decide (s.st.toNat = 1)) :=
  congrArg Reply.okFlag (decide_eq_decide.mpr BitVec.toNat_inj.symm)

/-- Settles O51: each timer decays by one, and the two writes keep all else. -/
theorem tickTimersDecaysByOne : Obligations.TickTimersDecaysByOne :=
  fun _ s => ⟨_, congrArg (OpOutcome.mk _) (tickTimers_reply s), decay_toNat s.dt, decay_toNat s.st,
    tickTimers_keepsAllBut s⟩

/-- Settles O52: `ST` is 1 exactly when it is above 0 and one less is not. -/
theorem toneStopMarksTheEndOfSound : Obligations.ToneStopMarksTheEndOfSound := by
  intro font s
  have hdecay : (tickTimers s).state.st.toNat = s.st.toNat - 1 := decay_toNat s.st
  refine ⟨rfl, ?_⟩
  simp only [applyOp, tickTimers_reply, soundShouldPlay, hdecay, Reply.okFlag.injEq, decide_eq_true_eq,
    decide_eq_false_iff_not]
  omega

/-! The display. -/

/-- Coordinates on the display do not wrap. -/
theorem pixelIndex_val (px : Fin 64) (py : Fin 32) : (pixelIndex px.val py.val).val = px.val + 64 * py.val := by
  simp only [pixelIndex, Nat.mod_eq_of_lt px.isLt, Nat.mod_eq_of_lt py.isLt]

/-- Settles O56: the list is the grid, in which the pixel stands at that place. -/
theorem getDisplayIsRowMajor : Obligations.GetDisplayIsRowMajor := by
  refine fun font s => ⟨_, rfl, s.fb.length_toList, fun px py => ?_⟩
  rw [← pixelIndex_val, getDisplay, State.pixel, Vector.getElem?_toList, Vector.getElem?_eq_getElem (pixelIndex _ _).isLt]

end Sys2Proof.Machine
end

section
/-! Reset and hazards (spec/70_reset_and_hazards.md): the jump to itself that ends a program (R194), and the image that
`load` copies (R192). -/

namespace Sys2Proof.Machine

/-! The jump to itself. -/

/-- A jump to where the fetch took `pc` from undoes the advance of the fetch. -/
theorem exec_jp_back_of_fetched {s : State} {nnn : Imm12} (h : nnn.toNat = s.pc.toNat) :
    exec (.jp nnn) (s.setPc (s.pc + 2)) = .next s := by
  have htarget : zext16 nnn = s.pc := BitVec.eq_of_toNat_eq ((zext16_toNat (by decide) nnn).trans h)
  exact congrArg (fun w => Host.Outcome.next (s.setPc w)) htarget

/-- Settles O32: the tick runs the jump at `pc`, whose target is `pc`. -/
theorem selfJumpLeavesTheStateUnchanged : Obligations.SelfJumpLeavesTheStateUnchanged := by
  rintro s ⟨op, nnn, hat, hd, hself⟩
  rw [hat.step_eq_exec hd, exec_jp_back_of_fetched hself]

/-! The load of an image. -/

/-- Settles O54: from 512 up, 3584 bytes end with memory, so each byte of an image no longer than that is stored at its
address. -/
theorem loadCopiesTheImage : Obligations.LoadCopiesTheImage := by
  intro font s image hw
  refine ⟨fun hle => ?copied, fun hgt => load_of_gt hgt⟩
  case copied =>
    have hfits : 512 + image.length ≤ memSize := Nat.add_le_add_left hle 512
    exact ⟨_, load_of_le hle, s.readByte_storeRun_inside 512 image hw hfits, s.keepsMemoryOutside_storeRun 512 image,
      s.keepsAllBut_storeRun (by decide) 512 image⟩

end Sys2Proof.Machine
end

section
/-! No refusal (spec/93_implementation_defined.md, part 1): every shared operation goes on or faults, so every instruction,
and with it every step, answers a next state or a fault. -/

namespace Sys2Proof.Machine

/-! A shared operation that goes on to a next state, or faults, refuses nothing. -/

section
variable {s t : State} {x : Reg} {r : Refusal}

theorem guardRun_ne_refused {base len : Nat} : guardRun base len (.next t) ≠ .refused r := by
  by_cases h : 0 < len ∧ base + len - 1 > 4095
  · rw [guardRun_fault h]
    nofun
  · rw [guardRun_ok h]
    nofun

theorem State.push_ne_refused {w : Word} {g : State → State} : (s.push w fun t => .next (g t)) ≠ .refused r := by
  obtain ⟨_, e⟩ | ⟨-, e⟩ := s.push_cases w fun t => .next (g t) <;> rw [e] <;> nofun

theorem State.pop_ne_refused {g : Word → State → State} : (s.pop fun w t => .next (g w t)) ≠ .refused r := by
  obtain ⟨_, e⟩ | ⟨-, e⟩ := s.pop_cases fun w t => .next (g w t) <;> rw [e] <;> nofun

theorem State.withKey_ne_refused {g : Bool → State} :
    (s.withKey x fun pressed => .next (g pressed)) ≠ .refused r := by
  obtain ⟨_, e⟩ | ⟨-, e⟩ := s.withKey_cases x fun pressed => .next (g pressed) <;> rw [e] <;> nofun

/-! From the instructions to the step. -/

/-- The waiting read of a key goes on, with a key or without. -/
theorem exec_ldVxK_ne_refused : exec (.ldVxK x) s ≠ .refused r := by
  cases hk : s.leastKey with
  | some k =>
    rw [exec_ldVxK_of_some x hk]
    nofun
  | none =>
    rw [exec_ldVxK_of_none x hk]
    nofun

/-- No instruction is without a meaning. The cases left to the last line answer a next state outright. -/
theorem exec_ne_refused (i : Instr) : exec i s ≠ .refused r := by
  cases i with
  | ret => exact State.pop_ne_refused (g := fun target t => t.setPc target)
  | call nnn => exact State.push_ne_refused (g := fun t => t.setPc (zext16 nnn))
  | skp x => exact State.withKey_ne_refused (g := s.skipIf)
  | sknp x => exact State.withKey_ne_refused (g := fun pressed => s.skipIf !pressed)
  | drw x y n | ldB x | stRegs x | ldRegs x => exact guardRun_ne_refused
  | ldVxK x => exact exec_ldVxK_ne_refused
  | _ => nofun

theorem execute_ne_refused (op : Word) : execute op s ≠ .refused r := by
  cases hd : decodeOp op with
  | ok i =>
    rw [execute_ok hd]
    exact exec_ne_refused i
  | error _ =>
    rw [execute_error hd]
    nofun

end

/-- Settles O11: a step faults at the fetch, or answers what the word it fetched does, which is no refusal. -/
theorem noStepIsRefused : Obligations.NoStepIsRefused := by
  intro s r
  by_cases hpc : s.pc.toNat + 1 > 4095
  · rw [step_of_fetch_fault hpc]
    nofun
  · rw [step_of_fetch (by omega)]
    exact execute_ne_refused _

end Sys2Proof.Machine
end
